-- ==== Sys2Proof/Word.lean ====
section
/-! DEFINITION. The word types of the block (00_scope.md R16, R17): every value is an unsigned bit vector, bit 0 least significant. -/

namespace Sys2Proof

/-- A byte of the wire, of a data register or of a unit byte (30_encoding.md R120, R121). -/
abbrev Byte := BitVec 8

/-- A 16-bit word: a ring-buffer entry (30_encoding.md R124) or a response's `rsp_data` (R133). -/
abbrev Word16 := BitVec 16

/-- The host command word (30_encoding.md R131). -/
abbrev CmdWord := BitVec 24

end Sys2Proof
end

