-- ==== Sys2Proof/Syntax.lean ====
section
/-! DEFINITION. The host commands, one constructor per row of spec/opcode_table.json (30_encoding.md R132, R136). -/

namespace Sys2Proof

/-- A decoded host command. `idx` is R136's `idx = zext_8(U[5:0])`, `t` the type code A, `cb` the flag D[0]. The fields that a
command ignores (R135) are no operands of it. -/
inductive Instr where
  | nop
  | submit (u d : Byte)
  | register (idx : Byte) (t : BitVec 4) (cb : Bool)
  | setCallback (idx : Byte) (cb : Bool)
  | getInput (idx : Byte)
  | getOutput (idx : Byte)
  | getDesc (idx : Byte)
  | eventGet (idx : Byte)
  | eventClear (idx : Byte)
  | eventClearAll
  | status
  | reservedB
  | reservedC
  | reservedD
  | reservedE
  | reservedF
  deriving DecidableEq, Repr

end Sys2Proof
end

