-- ==== Sys2Proof/WellFormed.lean ====
section
/-! DEFINITION. Which `Instr` terms a command word can spell: a unit index is six bits, zero-extended (30_encoding.md R136). -/

namespace Sys2Proof

/-- A unit index that six bits hold: 0..63 (20_memory.md R81). -/
def sixBitIndex (idx : Byte) : Bool := decide (idx.toNat < 64)

/-- The operand check of every constructor. -/
def Instr.wellFormed : Instr → Bool
  | .nop                => true
  | .submit _ _         => true
  | .register idx _ _   => sixBitIndex idx
  | .setCallback idx _  => sixBitIndex idx
  | .getInput idx       => sixBitIndex idx
  | .getOutput idx      => sixBitIndex idx
  | .getDesc idx        => sixBitIndex idx
  | .eventGet idx       => sixBitIndex idx
  | .eventClear idx     => sixBitIndex idx
  | .eventClearAll      => true
  | .status             => true
  | .reservedB          => true
  | .reservedC          => true
  | .reservedD          => true
  | .reservedE          => true
  | .reservedF          => true

end Sys2Proof
end

