-- ==== Sys2Proof/Decode.lean ====
section
/-! DEFINITION. Decoding and encoding the 24-bit command word (30_encoding.md R131, R132, R136): total on every word. -/

namespace Sys2Proof

/-- `op = w[23:20]`. -/
def opField (w : CmdWord) : BitVec 4 := w.extractLsb' 20 4

/-- `A = w[19:16]`. -/
def aField (w : CmdWord) : BitVec 4 := w.extractLsb' 16 4

/-- `U = w[15:8]`. -/
def uField (w : CmdWord) : Byte := w.extractLsb' 8 8

/-- `D = w[7:0]`. -/
def dField (w : CmdWord) : Byte := w.extractLsb' 0 8

/-- `idx = zext_8(U[5:0])`: the mode bits U[7:6] are ignored (R136). -/
def idxField (w : CmdWord) : Byte := ((uField w).extractLsb' 0 6).setWidth 8

/-- `cb = D[0]`: D[7:1] is ignored (R136). -/
def cbField (w : CmdWord) : Bool := (dField w).getLsbD 0

/-- R136, on every 24-bit word. -/
def decode (w : CmdWord) : Instr :=
  match (opField w).toNat with
  | 0x0 => .nop
  | 0x1 => .submit (uField w) (dField w)
  | 0x2 => .register (idxField w) (aField w) (cbField w)
  | 0x3 => .setCallback (idxField w) (cbField w)
  | 0x4 => .getInput (idxField w)
  | 0x5 => .getOutput (idxField w)
  | 0x6 => .getDesc (idxField w)
  | 0x7 => .eventGet (idxField w)
  | 0x8 => .eventClear (idxField w)
  | 0x9 => .eventClearAll
  | 0xA => .status
  | 0xB => .reservedB
  | 0xC => .reservedC
  | 0xD => .reservedD
  | 0xE => .reservedE
  | _   => .reservedF   -- 0xF, the one value of four bits that is left

/-- Why bits are no command word: the only thing a decoder of this block can reject. -/
inductive DecodeReject where
  /-- not exactly one 24-bit word ("every command is exactly one 24-bit word", R136) -/
  | notOneWord
  deriving DecidableEq, Repr

/-- The decoder on a number of bits and their value. Fewer than 24 bits given stand for a word whose bits above are 0 (log 17);
more, or a value the bits do not hold, are rejected by name. -/
def decodeBits (nbits w : Nat) : Except DecodeReject Instr :=
  if nbits ≤ 24 ∧ w < 2 ^ nbits then .ok (decode (BitVec.ofNat 24 w)) else .error .notOneWord

/-- The instruction read from a row of spec/opcode_table.json, bits numbered as the table numbers them (one word: `cmd_word[0]` is bit 0). -/
def decodeTableWord (nbits w : Nat) : Option Instr := (decodeBits nbits w).toOption

/-! ## The encoder (R131, R145: ignored fields are zero) -/

/-- `{op, A, U, D}`. -/
def packWord (op a : BitVec 4) (u d : Byte) : CmdWord := op ++ a ++ u ++ d

/-- A unit index in U[5:0], with U[7:6] = 0 (R145). -/
def indexByte (idx : Byte) : Byte := (idx.extractLsb' 0 6).setWidth 8

/-- A callback flag in D[0], with D[7:1] = 0. -/
def flagByte (cb : Bool) : Byte := (BitVec.ofBool cb).setWidth 8

/-- The word of an instruction. -/
def encode : Instr → CmdWord
  | .nop                => packWord 0x0#4 0#4 0#8 0#8
  | .submit u d         => packWord 0x1#4 0#4 u d
  | .register idx t cb  => packWord 0x2#4 t (indexByte idx) (flagByte cb)
  | .setCallback idx cb => packWord 0x3#4 0#4 (indexByte idx) (flagByte cb)
  | .getInput idx       => packWord 0x4#4 0#4 (indexByte idx) 0#8
  | .getOutput idx      => packWord 0x5#4 0#4 (indexByte idx) 0#8
  | .getDesc idx        => packWord 0x6#4 0#4 (indexByte idx) 0#8
  | .eventGet idx       => packWord 0x7#4 0#4 (indexByte idx) 0#8
  | .eventClear idx     => packWord 0x8#4 0#4 (indexByte idx) 0#8
  | .eventClearAll      => packWord 0x9#4 0#4 0#8 0#8
  | .status             => packWord 0xA#4 0#4 0#8 0#8
  | .reservedB          => packWord 0xB#4 0#4 0#8 0#8
  | .reservedC          => packWord 0xC#4 0#4 0#8 0#8
  | .reservedD          => packWord 0xD#4 0#4 0#8 0#8
  | .reservedE          => packWord 0xE#4 0#4 0#8 0#8
  | .reservedF          => packWord 0xF#4 0#4 0#8 0#8

end Sys2Proof
end

