-- ==== Sys2Proof/Config.lean ====
section
/-! DEFINITION. The implementation parameters of an instance (00_scope.md R7 to R11). They are arguments of the model, fixed
for the life of an instance; Machine/Invariants.lean says which values are legal (R12). The spec leaves no value of an
accepted operation open, so there is no free value here. -/

namespace Sys2Proof

/-- The parameters of one instance. -/
structure Params where
  /-- `RB_CAPACITY` (R7): ring-buffer capacity in pairs; 0 selects the queueless variant. -/
  rbCapacity   : Nat
  /-- `NUM_UNITS` (R8): how many units have a descriptor and storage. -/
  numUnits     : Nat
  /-- `HAS_ACK_UNIT` (R9): whether REGISTER accepts the type Ack. -/
  hasAckUnit   : Bool
  /-- `HAS_ERROR_UNIT` (R9): whether REGISTER accepts the type Error. -/
  hasErrorUnit : Bool
  /-- `BAUD_RATE` (R10): informational, read by no rule. -/
  baudRate     : Nat
  /-- `WDT_TICKS` (R11): watchdog ticks from arming to expiry. -/
  wdtTicks     : Nat
  deriving DecidableEq, Repr

/-- The instance that `State.reset` describes. DESIGN CHOICE (log 2), unsafe: the spec gives `NUM_UNITS` and the two flags their
defaults (R8, R9) and names the baud rate (R10), but `RB_CAPACITY` and `WDT_TICKS` have none; 0 and 3 are the values of
95_test_vectors.md section 0. No statement rests on them: each is about every legal parameter value. -/
def Config.defaultParams : Params where
  rbCapacity   := 0
  numUnits     := 64
  hasAckUnit   := true
  hasErrorUnit := true
  baudRate     := 1000000
  wdtTicks     := 3

end Sys2Proof
end

