-- ==== Sys2Proof/Machine/Codes.lean ====
section
/-! DEFINITION. The block's fixed sets of names and the codes the spec gives them (10_state.md R32; 30_encoding.md R125, R126, R133, R134;
60_exceptions.md R292). -/

namespace Sys2Proof.Machine

/-! ## Receive states (10_state.md R32), codes of the 2-bit register `rx_state` -/

/-- "expect unit byte". -/
def rxAwaitUnit : BitVec 2 := 0b00#2
/-- "expect data byte". -/
def rxAwaitData : BitVec 2 := 0b01#2
/-- "invalid-unit resync". -/
def rxResyncDiscard : BitVec 2 := 0b10#2

/-! ## Unit types (30_encoding.md R126) -/

/-- The source's enumeration, in its order. -/
inductive UnitType where
  | undefined | reset | error | ack | gpio | uart | timer | spi | i2c | sram
  deriving DecidableEq, Repr

/-- The 4-bit code of a type; 10 to 15 are reserved. -/
def UnitType.code : UnitType → BitVec 4
  | .undefined => 0
  | .reset     => 1
  | .error     => 2
  | .ack       => 3
  | .gpio      => 4
  | .uart      => 5
  | .timer     => 6
  | .spi       => 7
  | .i2c       => 8
  | .sram      => 9

/-! ## Responses (30_encoding.md R133, R134) -/

/-- `rsp_code`. 0b11 is never produced, so it has no constructor. -/
inductive RspCode where
  | ok | fail | illegal
  deriving DecidableEq, Repr

/-- The two bits on the port. -/
def RspCode.bits : RspCode → BitVec 2
  | .ok      => 0b00
  | .fail    => 0b01
  | .illegal => 0b10

/-- The causes of FAIL and ILLEGAL. -/
inductive Cause where
  | txBusy | queueFull | reservedOp | indexRange | reservedType | typeAbsent
  deriving DecidableEq, Repr

/-- `rsp_data` of a FAIL or ILLEGAL: the cause code in bits 3:0, bits 15:4 zero (R134). -/
def Cause.data : Cause → Word16
  | .txBusy       => 0x1
  | .queueFull    => 0x2
  | .reservedOp   => 0x3
  | .indexRange   => 0x4
  | .reservedType => 0x5
  | .typeAbsent   => 0x6

/-! ## Annotations (60_exceptions.md R292) -/

/-- Why a received byte, pair or pending unit byte was dropped: for the history of a run only, never read by a later step. -/
inductive DropLabel where
  /-- err = 1 in AwaitUnit (41_receive.md R202) -/
  | unitFraming
  /-- any byte in ResyncDiscard (R205) -/
  | resync
  /-- err = 1 in AwaitData (R204) -/
  | dataFraming
  /-- watchdog expiry (R224) -/
  | timeout
  /-- dispatch to an Undefined or out-of-range unit (R211) -/
  | unregistered
  deriving DecidableEq, Repr

end Sys2Proof.Machine
end

