-- ==== Sys2Proof/Machine/Regs.lean ====
section
/-! DEFINITION. The complete state of one instance, element by element as 10_state.md R50 lists it, and its reset values (70_reset_and_hazards.md R330). -/

namespace Sys2Proof.Machine

/-- R50, under the spec's own names. A one-bit element is a Bool; an array is a list whose length the instance fixes (log 12). -/
structure Regs where
  /-- R32: receive state; 0b11 is never reached. -/
  rx_state     : BitVec 2
  /-- R33: full unit byte of the pair being received. -/
  pending_unit : Byte
  /-- R40: watchdog interrupt enable. -/
  wdt_armed    : Bool
  /-- R34: ticks since the last arm. -/
  wdt_count    : BitVec 16
  /-- R41: transmit-data-empty interrupt enable. -/
  tx_int_en    : Bool
  /-- R42: THR has had a pair's unit byte and `second_byte` holds its data byte. -/
  mid_pair     : Bool
  /-- R35: data byte of the pair in flight. -/
  second_byte  : Byte
  /-- R36: `RB_CAPACITY` ring-buffer entries, `{unit_byte, data_byte}`. -/
  rb_mem       : List Word16
  /-- R37: slot of the oldest stored entry. -/
  rb_head      : BitVec 8
  /-- R38: slot the next Enqueue writes. -/
  rb_tail      : BitVec 8
  /-- R39: free slots. -/
  rb_free      : BitVec 8
  /-- R47: type codes (30_encoding.md R126), one per unit. -/
  desc_type    : List (BitVec 4)
  /-- R45: whether a callback is registered, one per unit. -/
  desc_cb      : List Bool
  /-- R48: most recently received data byte, one per unit. -/
  in_val       : List Byte
  /-- R49: data byte of the most recently accepted SUBMIT, one per unit. -/
  out_val      : List Byte
  /-- R46: bit i says unit i has unconsumed received data. -/
  event_word   : BitVec 64
  /-- R43: UART transmit holding register full (peripheral state). -/
  thr_full     : Bool
  /-- R44: the byte in it (peripheral state). -/
  thr_byte     : Byte
  deriving DecidableEq, Repr

/-- R330: every element at its reset value, for the instance `p`. -/
def Regs.reset (p : Params) : Regs where
  rx_state     := rxAwaitUnit
  pending_unit := 0x00
  wdt_armed    := false
  wdt_count    := 0
  tx_int_en    := false
  mid_pair     := false
  second_byte  := 0x00
  rb_mem       := List.replicate p.rbCapacity 0x0000
  rb_head      := 0
  rb_tail      := 0
  rb_free      := BitVec.ofNat 8 p.rbCapacity
  desc_type    := List.replicate p.numUnits UnitType.undefined.code
  desc_cb      := List.replicate p.numUnits false
  in_val       := List.replicate p.numUnits 0x00
  out_val      := List.replicate p.numUnits 0x00
  event_word   := 0
  thr_full     := false
  thr_byte     := 0x00

end Sys2Proof.Machine
end

