-- ==== Sys2Proof/Machine/State.lean ====
section
/-! DEFINITION. The machine's state: R50's registers, the two output registers the ports imply, the instance's parameters, and the
environment's moves that are still to come. Plain data throughout. -/

namespace Sys2Proof.Machine

/-- A response (30_encoding.md R133). -/
structure Response where
  code : RspCode
  data : Word16
  deriving DecidableEq, Repr

/-- A callback notification (30_encoding.md R143): the full received unit byte and the data byte. -/
structure Notification where
  cb_unit : Byte
  cb_data : Byte
  deriving DecidableEq, Repr

/-- A received byte with its error flags (30_encoding.md R141). -/
structure RxByte where
  data : Byte
  /-- `rx_fe` -/
  fe   : Bool
  /-- `rx_pe` -/
  pe   : Bool
  deriving DecidableEq, Repr

/-- What the environment does in one cycle (60_exceptions.md R300's `in`): `none` where the port's valid signal is 0. -/
structure CycleInput where
  /-- `rst` (30_encoding.md R144) -/
  rst   : Bool
  /-- the UART-TX agent takes the byte from THR in this cycle (40_transmit.md R175) -/
  drain : Bool
  /-- `cmd_valid` with `cmd_word` (30_encoding.md R130) -/
  cmd   : Option CmdWord
  /-- `rx_valid` with its byte (30_encoding.md R141) -/
  rx    : Option RxByte
  /-- `wdt_tick` (30_encoding.md R142) -/
  tick  : Bool
  deriving DecidableEq, Repr

/-- `IDLE` (30_encoding.md R146): a cycle with no input event. -/
def CycleInput.idle : CycleInput := ⟨false, false, none, none, false⟩

/-- What the block's ports showed in one cycle, with the step's annotations. -/
structure Ports where
  /-- `rsp_valid`, `rsp_code`, `rsp_data`: the response to the command of the cycle before (R130) -/
  rsp   : Option Response
  /-- `cb_valid`, `cb_unit`, `cb_data`: the notification of the cycle before's dispatch (41_receive.md R212) -/
  cb    : Option Notification
  /-- `tx_wr` with `tx_byte` (R140) -/
  tx    : Option Byte
  /-- `wire_out` of this cycle's DRAIN (40_transmit.md R175) -/
  wire  : Option Byte
  /-- drop labels of this cycle, oldest first (60_exceptions.md R292) -/
  drops : List DropLabel
  deriving DecidableEq, Repr

/-- No output: what a reset cycle shows (70_reset_and_hazards.md R332). -/
def Ports.quiet : Ports := ⟨none, none, none, none, []⟩

/-- The machine. -/
structure State where
  /-- the instance's parameters; no step writes them (log 1) -/
  params  : Params
  /-- the complete state of the instance (10_state.md R50) -/
  regs    : Regs
  /-- the environment's moves of the coming cycles, the next one first (log 3) -/
  inputs  : List CycleInput
  /-- the response that the next cycle presents (R130, R343) -/
  rsp_reg : Option Response
  /-- the notification that the next cycle presents (R212) -/
  cb_reg  : Option Notification
  /-- what the ports showed in the cycle just done; read by no step (log 5) -/
  ports   : Ports
  deriving DecidableEq, Repr

/-- Why the machine stops. Each one is a stop the spec asks of a model that finds itself in an unreachable state
(93_implementation_defined.md U1: "fault. The model must not pick a transition from such a state"); all are SAFE. -/
inductive Fault where
  /-- Raised by the cycle's guard: R60 is broken. Safe. -/
  | slotConservation
  /-- Raised by the cycle's guard: R61, or the ranges of R37 and R38, is broken. Safe. -/
  | ringIndices
  /-- Raised by the cycle's guard: R63 is broken (rx_state = 0b11 among it). Safe. -/
  | receiveControl
  /-- Raised by the cycle's guard: R64 is broken. Safe. -/
  | watchdogCount
  /-- Raised by the cycle's guard: R65 is broken. Safe. -/
  | transmitControl
  /-- Raised by the cycle's guard: the range part of R66 is broken. Safe. -/
  | eventRange
  /-- Raised by the cycle's guard: an array has not the length R50 gives it. Safe. -/
  | arrayLength
  /-- Raised by RXC in rx_state 0b11 (41_receive.md R206). Safe. -/
  | rxStateUnused
  /-- Raised by `thr_write` while thr_full = 1 (40_transmit.md R161). Safe. -/
  | thrOverwrite
  /-- Raised by a queueless TXE with mid_pair = 0 (40_transmit.md R167). Safe. -/
  | txeNotMidPair
  /-- Raised by an array primitive whose index is out of range (20_memory.md R82). Safe. -/
  | indexOutOfRange
  /-- Raised by Enqueue where R90 does not define it. Safe. -/
  | enqueueUndefined
  /-- Raised by Dequeue where R91 does not define it. Safe. -/
  | dequeueUndefined
  deriving DecidableEq, Repr

/-- Why a step has no meaning. -/
inductive Refusal where
  /-- Raised by exec's arm of an instruction that has no meaning yet. Safe. -/
  | notModelled (mnemonic : String)
  /-- Raised by step for an instance whose parameters are outside their ranges (00_scope.md R12). Safe. -/
  | illegalParameters
  deriving DecidableEq, Repr

/-- The state of instance `p` right after a reset (R330, R332), with the environment's moves `ins` to come. -/
def State.resetOf (p : Params) (ins : List CycleInput) : State where
  params  := p
  regs    := Regs.reset p
  inputs  := ins
  rsp_reg := none
  cb_reg  := none
  ports   := Ports.quiet

/-- The machine right after reset: R330's values, for the default instance (log 2), with nothing placed on its inputs (log 3). -/
def State.reset : State := State.resetOf Config.defaultParams []

end Sys2Proof.Machine
end

