-- ==== Sys2Proof/Machine/Flags.lean ====
section
/-! DEFINITION. The one-bit conditions that the operations test (10_state.md R39 to R43; 40_transmit.md R162, R165; 60_exceptions.md R296). -/

namespace Sys2Proof.Machine

/-- `rb_count = RB_CAPACITY - rb_free` (10_state.md R39). -/
def rbCount (s : State) : Nat := s.params.rbCapacity - s.regs.rb_free.toNat

/-- `tx_ready`, equal to NOT thr_full (30_encoding.md R140). -/
def txReady (s : State) : Bool := !s.regs.thr_full

/-- The queueless engine is busy: THR is occupied or a second byte is pending (40_transmit.md R162). -/
def queuelessBusy (s : State) : Bool := s.regs.thr_full || s.regs.tx_int_en

/-- The buffered engine has no free slot (40_transmit.md R165). -/
def queueFull (s : State) : Bool := decide (s.regs.rb_free = 0)

/-- TXE's enable and pending condition (60_exceptions.md R296). -/
def txeEnabled (s : State) : Bool := s.regs.tx_int_en && txReady s

/-- `err = rx_fe OR rx_pe` (30_encoding.md R141). -/
def rxErr (b : RxByte) : Bool := b.fe || b.pe

/-- A type code that is no unit type (42_registry.md R243: 10 to 15). -/
def typeReserved (t : BitVec 4) : Bool := decide (10 ≤ t.toNat)

/-- A type whose unit the instance does not have (42_registry.md R243). -/
def typeAbsent (p : Params) (t : BitVec 4) : Bool :=
  (decide (t = UnitType.ack.code) && !p.hasAckUnit) || (decide (t = UnitType.error.code) && !p.hasErrorUnit)

/-- Event bit i (20_memory.md R86: bit i belongs to unit i). -/
def eventBit (w : BitVec 64) (i : Nat) : Bool := w.getLsbD i

/-- The event word with bit i set to b and every other bit kept. -/
def withEventBit (w : BitVec 64) (i : Nat) (b : Bool) : BitVec 64 :=
  if b then w ||| BitVec.twoPow 64 i else w &&& ~~~(BitVec.twoPow 64 i)

end Sys2Proof.Machine
end

