-- ==== Sys2Proof/Machine/Operands.lean ====
section
/-! DEFINITION. Operand forms: how an index is taken from a unit byte, and how the packed words are laid out
(20_memory.md R81, R86; 30_encoding.md R121, R124, R127, R128). -/

namespace Sys2Proof.Machine

/-- `zext_8(U[5:0])` as an array index (20_memory.md R81): the mode bits take no part. -/
def unitIndex (u : Byte) : Nat := (u.extractLsb' 0 6).toNat

/-- `{unit_byte, data_byte}` (R124). -/
def entryOf (u d : Byte) : Word16 := u ++ d

/-- `e[15:8]`. -/
def entryUnit (e : Word16) : Byte := e.extractLsb' 8 8

/-- `e[7:0]`. -/
def entryData (e : Word16) : Byte := e.extractLsb' 0 8

/-- The descriptor read-back word (R127): bit 4 the callback flag, bits 3:0 the type, the rest 0. -/
def descWord (cb : Bool) (t : BitVec 4) : Word16 := (BitVec.ofBool cb ++ t).setWidth 16

/-- The STATUS word (R128), high bits first. -/
def statusWord (s : State) : Word16 :=
  s.regs.rb_free ++ 0#1 ++ BitVec.ofBool (decide (0 < s.params.rbCapacity)) ++ BitVec.ofBool s.regs.thr_full
    ++ BitVec.ofBool s.regs.tx_int_en ++ BitVec.ofBool s.regs.mid_pair ++ BitVec.ofBool s.regs.wdt_armed
    ++ s.regs.rx_state

/-- Event bit i as a response datum, zero-extended (42_registry.md R248). -/
def bitWord (b : Bool) : Word16 := (BitVec.ofBool b).setWidth 16

end Sys2Proof.Machine
end

