-- ==== Sys2Proof/Machine/Ops.lean ====
section
/-! DEFINITION. The primitives every step is written with (00_scope.md R18 to R20): the response and its two raises, the array
primitives, the ring buffer, the transmit holding register, the watchdog, and the notification. The block has no trap entry or
return (60_exceptions.md R303): turning a command away is the response written by `raiseFail` or `raiseIllegal`. -/

namespace Sys2Proof.Machine

/-- What a step answers. -/
abbrev Result (α : Type) := Host.Outcome α Fault Refusal

/-- First r, then k on what it answered; a stop of r is a stop. -/
def andThen {α β : Type} (r : Result α) (k : α → Result β) : Result β :=
  match r with
  | .next a    => k a
  | .fault f   => .fault f
  | .refused q => .refused q

/-! ## Responses (00_scope.md R19; 30_encoding.md R133) -/

/-- `respond(code, data16)`: presented in the next cycle. -/
def respond (c : RspCode) (data : Word16) (s : State) : State := { s with rsp_reg := some ⟨c, data⟩ }

/-- `raise Fail(cause)`: no element of R50 changes. -/
def raiseFail (c : Cause) (s : State) : Result State := .next (respond .fail c.data s)

/-- `raise Illegal(cause)`: no element of R50 changes. -/
def raiseIllegal (c : Cause) (s : State) : Result State := .next (respond .illegal c.data s)

/-- The range test of a registry command, before anything else it does (42_registry.md R240). -/
def withIndex (idx : Byte) (s : State) (k : Nat → Result State) : Result State :=
  if s.params.numUnits ≤ idx.toNat then raiseIllegal .indexRange s else k idx.toNat

/-! ## Array primitives (20_memory.md R82): out of range they fault -/

/-- `MemRead(space_array, i)`. -/
def memRead {α : Type} (a : List α) (i : Nat) : Result α :=
  match a[i]? with
  | some v => .next v
  | none   => .fault .indexOutOfRange

/-- `MemWrite(space_array, i, v)`: the array after it. -/
def memWrite {α : Type} (a : List α) (i : Nat) (v : α) : Result (List α) :=
  if i < a.length then .next (a.set i v) else .fault .indexOutOfRange

/-- MemRead of the EVENT space: 64 bits whatever NUM_UNITS is (R80, R82). -/
def eventRead (w : BitVec 64) (i : Nat) : Result Bool :=
  if i < 64 then .next (eventBit w i) else .fault .indexOutOfRange

/-- MemWrite of the EVENT space: the event word after it. -/
def eventWrite (w : BitVec 64) (i : Nat) (b : Bool) : Result (BitVec 64) :=
  if i < 64 then .next (withEventBit w i b) else .fault .indexOutOfRange

/-! ## Ring buffer (20_memory.md R90, R91) -/

/-- `(i + 1) mod RB_CAPACITY` (log 13). -/
def ringNext (cap : Nat) (i : BitVec 8) : BitVec 8 := BitVec.ofNat 8 ((i.toNat + 1) % cap)

/-- `Enqueue(e)`, defined only when `RB_CAPACITY > 0` and `rb_free > 0`. -/
def enqueue (e : Word16) (s : State) : Result State :=
  if 0 < s.params.rbCapacity ∧ 0 < s.regs.rb_free.toNat then
    andThen (memWrite s.regs.rb_mem s.regs.rb_tail.toNat e) fun m =>
      .next { s with regs := { s.regs with
        rb_mem  := m
        rb_tail := ringNext s.params.rbCapacity s.regs.rb_tail
        rb_free := s.regs.rb_free - 1 } }
  else .fault .enqueueUndefined

/-- `Dequeue()`, defined only when `RB_CAPACITY > 0` and `rb_free < RB_CAPACITY`: the entry, and the state after it. -/
def dequeue (s : State) : Result (Word16 × State) :=
  if 0 < s.params.rbCapacity ∧ s.regs.rb_free.toNat < s.params.rbCapacity then
    andThen (memRead s.regs.rb_mem s.regs.rb_head.toNat) fun e =>
      .next (e, { s with regs := { s.regs with
        rb_head := ringNext s.params.rbCapacity s.regs.rb_head
        rb_free := s.regs.rb_free + 1 } })
  else .fault .dequeueUndefined

/-! ## Transmit holding register (40_transmit.md R161, R175) -/

/-- `thr_write(b)`: `tx_wr` with `tx_byte = b` in this cycle; a full THR faults. -/
def thrWrite (b : Byte) (s : State) : Result State :=
  if s.regs.thr_full then .fault .thrOverwrite
  else .next { s with
    regs  := { s.regs with thr_byte := b, thr_full := true }
    ports := { s.ports with tx := some b } }

/-- DRAIN: `wire_out(thr_byte)`, and THR is empty. Its enabling condition is the caller's. -/
def drain (s : State) : State :=
  { s with
    regs  := { s.regs with thr_full := false }
    ports := { s.ports with wire := some s.regs.thr_byte } }

/-- The output-value update of an accepted SUBMIT (40_transmit.md R164): only for `idx < NUM_UNITS`, whatever the unit's type. -/
def recordOutput (u d : Byte) (s : State) : Result State :=
  if unitIndex u < s.params.numUnits then
    andThen (memWrite s.regs.out_val (unitIndex u) d) fun a => .next { s with regs := { s.regs with out_val := a } }
  else .next s

/-! ## Watchdog (41_receive.md R221, R222) -/

/-- `ArmWdt()`: armed, counting from 0. -/
def armWdt (s : State) : State := { s with regs := { s.regs with wdt_armed := true, wdt_count := 0 } }

/-- `DisarmWdt()`: disarmed, count 0, nothing pending. -/
def disarmWdt (s : State) : State := { s with regs := { s.regs with wdt_armed := false, wdt_count := 0 } }

/-- The receive state machine's next state. -/
def setRx (st : BitVec 2) (s : State) : State := { s with regs := { s.regs with rx_state := st } }

/-! ## Notification and annotations (41_receive.md R212; 60_exceptions.md R292) -/

/-- `emit_cb(u, d)`: presented in the next cycle. -/
def emitCb (u d : Byte) (s : State) : State := { s with cb_reg := some ⟨u, d⟩ }

/-- A drop label of this cycle; no later step reads it. -/
def noteDrop (l : DropLabel) (s : State) : State := { s with ports := { s.ports with drops := s.ports.drops ++ [l] } }

end Sys2Proof.Machine
end

