-- ==== Sys2Proof/Machine/Events.lean ====
section
/-! DEFINITION. The Event Store's commands (42_registry.md R248 to R250). There is no event-set command (R253). -/

namespace Sys2Proof.Machine

/-- EVENT_GET (op 0x7; R248). Reading does not clear. -/
def execEventGet (idx : Byte) (s : State) : Result State :=
  withIndex idx s fun i => andThen (eventRead s.regs.event_word i) fun b => .next (respond .ok (bitWord b) s)

/-- EVENT_CLEAR (op 0x8; R249). -/
def execEventClear (idx : Byte) (s : State) : Result State :=
  withIndex idx s fun i =>
    andThen (eventWrite s.regs.event_word i false) fun w =>
      .next (respond .ok 0x0000 { s with regs := { s.regs with event_word := w } })

/-- EVENT_CLEAR_ALL (op 0x9; R250). -/
def execEventClearAll (s : State) : Result State :=
  .next (respond .ok 0x0000 { s with regs := { s.regs with event_word := 0 } })

end Sys2Proof.Machine
end

