-- ==== Sys2Proof/Machine/Registry.lean ====
section
/-! DEFINITION. The Unit Registry's commands (42_registry.md R240 to R247). Each tests its index first. -/

namespace Sys2Proof.Machine

/-- REGISTER (op 0x2; R242, R243): the causes are tested in the order INDEX_RANGE, RESERVED_TYPE, TYPE_ABSENT. -/
def execRegister (idx : Byte) (t : BitVec 4) (cb : Bool) (s : State) : Result State :=
  withIndex idx s fun i =>
    if typeReserved t then raiseIllegal .reservedType s
    else if typeAbsent s.params t then raiseIllegal .typeAbsent s
    else
      andThen (memWrite s.regs.desc_type i t) fun ts =>
      andThen (memWrite s.regs.desc_cb i cb) fun cbs =>
        .next (respond .ok 0x0000 { s with regs := { s.regs with desc_type := ts, desc_cb := cbs } })

/-- SET_CALLBACK (op 0x3; R244). -/
def execSetCallback (idx : Byte) (cb : Bool) (s : State) : Result State :=
  withIndex idx s fun i =>
    andThen (memWrite s.regs.desc_cb i cb) fun cbs =>
      .next (respond .ok 0x0000 { s with regs := { s.regs with desc_cb := cbs } })

/-- GET_INPUT (op 0x4; R245). The event bit is not cleared. -/
def execGetInput (idx : Byte) (s : State) : Result State :=
  withIndex idx s fun i => andThen (memRead s.regs.in_val i) fun v => .next (respond .ok (v.setWidth 16) s)

/-- GET_OUTPUT (op 0x5; R246). -/
def execGetOutput (idx : Byte) (s : State) : Result State :=
  withIndex idx s fun i => andThen (memRead s.regs.out_val i) fun v => .next (respond .ok (v.setWidth 16) s)

/-- GET_DESC (op 0x6; R247). -/
def execGetDesc (idx : Byte) (s : State) : Result State :=
  withIndex idx s fun i =>
    andThen (memRead s.regs.desc_cb i) fun cb =>
    andThen (memRead s.regs.desc_type i) fun t => .next (respond .ok (descWord cb t) s)

end Sys2Proof.Machine
end

