-- ==== Sys2Proof/Machine/System.lean ====
section
/-! DEFINITION. NOP, STATUS and the reserved opcodes (42_registry.md R241, R251, R252). -/

namespace Sys2Proof.Machine

/-- NOP (op 0x0; R241). -/
def execNop (s : State) : Result State := .next (respond .ok 0x0000 s)

/-- STATUS (op 0xA; R251). -/
def execStatus (s : State) : Result State := .next (respond .ok (statusWord s) s)

/-- Op 0xB (R252): ILLEGAL/RESERVED_OP. -/
def execReservedB (s : State) : Result State := raiseIllegal .reservedOp s

/-- Op 0xC (R252). -/
def execReservedC (s : State) : Result State := raiseIllegal .reservedOp s

/-- Op 0xD (R252). -/
def execReservedD (s : State) : Result State := raiseIllegal .reservedOp s

/-- Op 0xE (R252). -/
def execReservedE (s : State) : Result State := raiseIllegal .reservedOp s

/-- Op 0xF (R252). -/
def execReservedF (s : State) : Result State := raiseIllegal .reservedOp s

end Sys2Proof.Machine
end

