-- ==== Sys2Proof/Machine/Transmit.lean ====
section
/-! DEFINITION. The Transmit Engine (40_transmit.md): the command SUBMIT in its two variants and the internal event TXE. -/

namespace Sys2Proof.Machine

/-- SUBMIT with `RB_CAPACITY = 0` (R162, R163): the unit byte goes to THR now, the data byte waits in `second_byte`. -/
def submitQueueless (u d : Byte) (s : State) : Result State :=
  if queuelessBusy s then raiseFail .txBusy s
  else
    andThen (thrWrite u s) fun s1 =>
    andThen (recordOutput u d s1) fun s2 =>
      .next (respond .ok 0x0000 { s2 with regs := { s2.regs with second_byte := d, mid_pair := true, tx_int_en := true } })

/-- SUBMIT with `RB_CAPACITY > 0` (R165, R166): the pair is enqueued; THR is not written. -/
def submitBuffered (u d : Byte) (s : State) : Result State :=
  if queueFull s then raiseFail .queueFull s
  else
    andThen (enqueue (entryOf u d) s) fun s1 =>
    andThen (recordOutput u d s1) fun s2 =>
      .next (respond .ok 0x0000 { s2 with regs := { s2.regs with tx_int_en := true } })

/-- SUBMIT (op 0x1): the instance's variant (R160). No check on U (R173). -/
def execSubmit (u d : Byte) (s : State) : Result State :=
  if s.params.rbCapacity = 0 then submitQueueless u d s else submitBuffered u d s

/-- TXE, queueless (R167): send the stored data byte and go idle. `mid_pair = 0` is unreachable and faults. -/
def txeQueueless (s : State) : Result State :=
  if s.regs.mid_pair then
    andThen (thrWrite s.regs.second_byte s) fun s1 =>
      .next { s1 with regs := { s1.regs with mid_pair := false, tx_int_en := false } }
  else .fault .txeNotMidPair

/-- TXE, buffered, mid-pair (R170): send the stored data byte, and go idle if the queue is empty. -/
def txeSecondByte (s : State) : Result State :=
  andThen (thrWrite s.regs.second_byte s) fun s1 =>
    .next { s1 with regs := { s1.regs with
      mid_pair  := false
      tx_int_en := if rbCount s = 0 then false else s1.regs.tx_int_en } }

/-- TXE, buffered, not mid-pair, queue not empty (R168): dequeue, send the unit byte, keep the data byte. -/
def txeFirstByte (s : State) : Result State :=
  andThen (dequeue s) fun es =>
  andThen (thrWrite (entryUnit es.1) es.2) fun s1 =>
    .next { s1 with regs := { s1.regs with second_byte := entryData es.1, mid_pair := true } }

/-- TXE, buffered, not mid-pair, queue empty (R169): go idle. Unreachable, kept as the spec states it. -/
def txeIdle (s : State) : Result State := .next { s with regs := { s.regs with tx_int_en := false } }

/-- TXE where it is enabled (60_exceptions.md R296). -/
def txe (s : State) : Result State :=
  if s.params.rbCapacity = 0 then txeQueueless s
  else if s.regs.mid_pair then txeSecondByte s
  else if 0 < rbCount s then txeFirstByte s
  else txeIdle s

end Sys2Proof.Machine
end

