-- ==== Sys2Proof/Machine/Dispatch.lean ====
section
/-! DEFINITION. HOST(command), the third step of a cycle (60_exceptions.md R300): one arm per command. -/

namespace Sys2Proof.Machine

def exec (i : Instr) (s : State) : Host.Outcome State Fault Refusal :=
  match i with
  | .nop => Sys2Proof.Machine.execNop s
  | .submit u d => Sys2Proof.Machine.execSubmit u d s
  | .register idx t cb => Sys2Proof.Machine.execRegister idx t cb s
  | .setCallback idx cb => Sys2Proof.Machine.execSetCallback idx cb s
  | .getInput idx => Sys2Proof.Machine.execGetInput idx s
  | .getOutput idx => Sys2Proof.Machine.execGetOutput idx s
  | .getDesc idx => Sys2Proof.Machine.execGetDesc idx s
  | .eventGet idx => Sys2Proof.Machine.execEventGet idx s
  | .eventClear idx => Sys2Proof.Machine.execEventClear idx s
  | .eventClearAll => Sys2Proof.Machine.execEventClearAll s
  | .status => Sys2Proof.Machine.execStatus s
  | .reservedB => Sys2Proof.Machine.execReservedB s
  | .reservedC => Sys2Proof.Machine.execReservedC s
  | .reservedD => Sys2Proof.Machine.execReservedD s
  | .reservedE => Sys2Proof.Machine.execReservedE s
  | .reservedF => Sys2Proof.Machine.execReservedF s

end Sys2Proof.Machine
end

