-- ==== Sys2Proof/Machine/Invariants.lean ====
section
/-! DEFINITION. Which instances are legal (00_scope.md R12), and the invariants of 10_state.md that one state shows (R60, R61, R63 to R66),
as the checks the cycle makes (93_implementation_defined.md U1). R62, R67 and the second sentence of R66 speak of the history of a run and
cannot be read off a state (log 18). -/

namespace Sys2Proof.Machine

/-- R7, R8, R11, R12: the ranges of the parameters. -/
def paramsLegal (p : Params) : Bool :=
  decide (p.rbCapacity % 2 = 0) && decide (p.rbCapacity ≤ 254) && decide (1 ≤ p.numUnits) && decide (p.numUnits ≤ 64)
    && decide (1 ≤ p.wdtTicks) && decide (p.wdtTicks ≤ 65535)

/-- R60: `rb_free + rb_count = RB_CAPACITY` with `0 <= rb_free <= RB_CAPACITY`. -/
def slotsConserved (s : State) : Bool :=
  decide (s.regs.rb_free.toNat ≤ s.params.rbCapacity) && decide (s.regs.rb_free.toNat + rbCount s = s.params.rbCapacity)

/-- R61, with the ranges of R37 and R38: `rb_tail = (rb_head + rb_count) mod RB_CAPACITY` whenever `RB_CAPACITY > 0`. -/
def ringAligned (s : State) : Bool :=
  decide (0 < s.params.rbCapacity →
    s.regs.rb_head.toNat < s.params.rbCapacity ∧ s.regs.rb_tail.toNat < s.params.rbCapacity ∧
      s.regs.rb_tail.toNat = (s.regs.rb_head.toNat + rbCount s) % s.params.rbCapacity)

/-- R63: never 0b11, and armed exactly in AwaitData and ResyncDiscard. -/
def receiveControlled (s : State) : Bool :=
  decide (s.regs.rx_state ≠ 0b11#2) &&
    decide (s.regs.wdt_armed = (decide (s.regs.rx_state = rxAwaitData) || decide (s.regs.rx_state = rxResyncDiscard)))

/-- R64. -/
def watchdogBounded (s : State) : Bool :=
  if s.regs.wdt_armed then decide (s.regs.wdt_count.toNat < s.params.wdtTicks) else decide (s.regs.wdt_count = 0)

/-- R65: `tx_int_en = (mid_pair = 1) OR (rb_count > 0)`. -/
def transmitControlled (s : State) : Bool :=
  decide (s.regs.tx_int_en = (s.regs.mid_pair || decide (0 < rbCount s)))

/-- R66, first sentence: no event bit at or above NUM_UNITS. -/
def eventsInRange (s : State) : Bool := decide (s.regs.event_word >>> s.params.numUnits = 0)

/-- R50: the arrays have the lengths the instance gives them. -/
def arraysSized (s : State) : Bool :=
  decide (s.regs.rb_mem.length = s.params.rbCapacity) && decide (s.regs.desc_type.length = s.params.numUnits)
    && decide (s.regs.desc_cb.length = s.params.numUnits) && decide (s.regs.in_val.length = s.params.numUnits)
    && decide (s.regs.out_val.length = s.params.numUnits)

/-- The guard of a cycle: the first invariant the state breaks, if any. -/
def brokenInvariant (s : State) : Option Fault :=
  if !arraysSized s then some .arrayLength
  else if !slotsConserved s then some .slotConservation
  else if !ringAligned s then some .ringIndices
  else if !receiveControlled s then some .receiveControl
  else if !watchdogBounded s then some .watchdogCount
  else if !transmitControlled s then some .transmitControl
  else if !eventsInRange s then some .eventRange
  else none

end Sys2Proof.Machine
end

