-- ==== Sys2Proof/Machine/Receive.lean ====
section
/-! DEFINITION. The Receive State Machine and its watchdog (41_receive.md): the events RXC and TICK, and Dispatch. -/

namespace Sys2Proof.Machine

/-- Dispatch to an index that has no registered unit (R211): no storage write, no event, no notification. -/
def dispatchDropped (s : State) : Result State := .next (noteDrop .unregistered s)

/-- Dispatch to a registered unit: store, set the event bit, and notify if a callback is registered (R210, R213, R214). -/
def dispatchStored (u d : Byte) (s : State) : Result State :=
  andThen (memWrite s.regs.in_val (unitIndex u) d) fun a =>
  andThen (eventWrite s.regs.event_word (unitIndex u) true) fun w =>
  andThen (memRead s.regs.desc_cb (unitIndex u)) fun cb =>
    let s1 : State := { s with regs := { s.regs with in_val := a, event_word := w } }
    .next (if cb then emitCb u d s1 else s1)

/-- `Dispatch(u, d)` (R210). -/
def dispatch (u d : Byte) (s : State) : Result State :=
  if s.params.numUnits ≤ unitIndex u then dispatchDropped s
  else
    andThen (memRead s.regs.desc_type (unitIndex u)) fun t =>
      if t = UnitType.undefined.code then dispatchDropped s else dispatchStored u d s

/-- RXC in AwaitUnit (R201, R202): a clean byte is the pair's unit byte; an errored one starts a discard. Both arm the watchdog. -/
def rxcAwaitUnit (b : Byte) (err : Bool) (s : State) : Result State :=
  if err then .next (noteDrop .unitFraming (armWdt (setRx rxResyncDiscard s)))
  else .next (armWdt (setRx rxAwaitData { s with regs := { s.regs with pending_unit := b } }))

/-- RXC in AwaitData (R203, R204): a clean byte completes the pair; an errored one drops it. Both disarm the watchdog. -/
def rxcAwaitData (b : Byte) (err : Bool) (s : State) : Result State :=
  if err then .next (noteDrop .dataFraming (disarmWdt (setRx rxAwaitUnit s)))
  else dispatch s.regs.pending_unit b (disarmWdt (setRx rxAwaitUnit s))

/-- RXC in ResyncDiscard (R205): the byte is discarded whatever it is. -/
def rxcResyncDiscard (s : State) : Result State :=
  .next (noteDrop .resync (disarmWdt (setRx rxAwaitUnit s)))

/-- RXC (R200 to R206). -/
def rxc (b : Byte) (err : Bool) (s : State) : Result State :=
  if s.regs.rx_state = rxAwaitUnit then rxcAwaitUnit b err s
  else if s.regs.rx_state = rxAwaitData then rxcAwaitData b err s
  else if s.regs.rx_state = rxResyncDiscard then rxcResyncDiscard s
  else .fault .rxStateUnused

/-- The watchdog timeout (R224, R226): back to AwaitUnit from whatever state, disarmed, nothing dispatched. -/
def expire (s : State) : State := noteDrop .timeout (disarmWdt (setRx rxAwaitUnit s))

/-- TICK (R223 to R225). A count that has passed WDT_TICKS breaks R64 and faults. -/
def tick (s : State) : Result State :=
  if s.regs.wdt_armed then
    if s.regs.wdt_count.toNat + 1 < s.params.wdtTicks then
      .next { s with regs := { s.regs with wdt_count := s.regs.wdt_count + 1 } }
    else if s.regs.wdt_count.toNat + 1 = s.params.wdtTicks then .next (expire s)
    else .fault .watchdogCount
  else .next s

end Sys2Proof.Machine
end

