-- ==== Sys2Proof/Machine/Cycle.lean ====
section
/-! DEFINITION. One clock cycle (60_exceptions.md R300): RESET alone, or DRAIN, TXE, HOST, RXC, TICK, each seeing the state the
steps before it left. -/

namespace Sys2Proof.Machine

/-- The environment's moves of this cycle; once the listed ones are used up, IDLE (log 4). -/
def nextInput (s : State) : CycleInput := s.inputs.headD .idle

/-- The ports at the start of a cycle: the response and the notification of the cycle before are presented (30_encoding.md R130;
41_receive.md R212), and nothing is yet held for the next one. -/
def beginCycle (s : State) : State :=
  { s with
    inputs  := s.inputs.tail
    rsp_reg := none
    cb_reg  := none
    ports   := { rsp := s.rsp_reg, cb := s.cb_reg, tx := none, wire := none, drops := [] } }

/-- A RESET cycle (70_reset_and_hazards.md R330 to R332): every other input of the cycle is ignored, and nothing is presented. -/
def resetCycle (s : State) : State := State.resetOf s.params s.inputs.tail

/-- `if in.drain and thr_full = 1 then DRAIN`. -/
def drainPhase (c : CycleInput) (s : State) : State := if c.drain && s.regs.thr_full then drain s else s

/-- `if tx_int_en = 1 and thr_full = 0 then TXE`. -/
def txePhase (s : State) : Result State := if txeEnabled s then txe s else .next s

/-- `if in.cmd_valid = 1 then HOST(decode(in.cmd_word))`. -/
def hostPhase (c : CycleInput) (s : State) : Result State :=
  match c.cmd with
  | some w => exec (decode w) s
  | none   => .next s

/-- `if in.rx_valid = 1 then RXC(in.rx_data, in.rx_fe or in.rx_pe)`. -/
def rxPhase (c : CycleInput) (s : State) : Result State :=
  match c.rx with
  | some b => rxc b.data (rxErr b) s
  | none   => .next s

/-- `if in.wdt_tick = 1 then TICK`. -/
def tickPhase (c : CycleInput) (s : State) : Result State := if c.tick then tick s else .next s

/-- The part of a cycle before HOST. -/
def transmitPhase (c : CycleInput) (s : State) : Result State := txePhase (drainPhase c s)

/-- The part of a cycle after HOST. -/
def receivePhase (c : CycleInput) (s : State) : Result State := andThen (rxPhase c s) (tickPhase c)

/-- R300 from `cmd_valid` on, after the reset test. -/
def runCycle (c : CycleInput) (s : State) : Result State :=
  andThen (transmitPhase c s) fun s1 => andThen (hostPhase c s1) (receivePhase c)

/-- One cycle of the machine. An instance with illegal parameters is refused (00_scope.md R12). RESET runs from every state, since the
state before the first reset is any (93_implementation_defined.md U2; log 8); any other cycle faults in a state that breaks an invariant (U1). -/
def cycle (s : State) : Result State :=
  if paramsLegal s.params then
    if (nextInput s).rst then .next (resetCycle s)
    else
      match brokenInvariant s with
      | some f => .fault f
      | none   => runCycle (nextInput s) (beginCycle s)
  else .refused .illegalParameters

/-- A cycle whose only input is the command word w. -/
def commandInput (w : CmdWord) : CycleInput := { CycleInput.idle with cmd := some w }

/-- The command word w presented on the host port in the very next cycle, before everything the environment had to come. -/
def presentCommand (w : CmdWord) (s : State) : State := { s with inputs := commandInput w :: s.inputs }

end Sys2Proof.Machine
end

