-- ==== Sys2Proof/Machine/Step.lean ====
section
/-! DEFINITION. The machine's step is one clock cycle (00_scope.md R15, R23). -/

namespace Sys2Proof.Machine

/-- One cycle. -/
def step (s : State) : Host.Outcome State Fault Refusal := cycle s

/-- The block fetches nothing (20_memory.md R84): its next instruction is the command word presented in the next cycle. Bits of w at or
above nbits are zero (log 3, log 17). -/
def State.withFetchWord (s : State) (nbits w : Nat) : State := presentCommand (BitVec.ofNat 24 (w % 2 ^ nbits)) s

end Sys2Proof.Machine
end

