-- ==== Sys2Proof/Machine/Interleave.lean ====
section
/-! DEFINITION. The interleaving relaxation for proofs (60_exceptions.md R302): any enabled event, in any order, one at a time. -/

namespace Sys2Proof.Machine

/-- The core's steps and the environment's (60_exceptions.md R294). -/
inductive Event where
  | reset
  | drain
  | txe
  | host (w : CmdWord)
  | rxc (b : RxByte)
  | tick
  deriving DecidableEq, Repr

/-- R302's enabling conditions. It lists none for RESET, which R294 counts among the environment's events and R300 admits in every
cycle: always enabled (log 16). -/
def eventEnabled (e : Event) (s : State) : Bool :=
  match e with
  | .reset  => true
  | .drain  => s.regs.thr_full
  | .txe    => txeEnabled s
  | .host _ => true
  | .rxc _  => true
  | .tick   => true

/-- The step of one event. DESIGN CHOICE: it tests neither the parameters nor the invariants; R12 does not say where an illegal instance is
refused, and `step` does it (log 21, log 24). -/
def eventStep (e : Event) (s : State) : Result State :=
  match e with
  | .reset  => .next (State.resetOf s.params s.inputs)
  | .drain  => .next (drain s)
  | .txe    => txe s
  | .host w => exec (decode w) s
  | .rxc b  => rxc b.data (rxErr b) s
  | .tick   => tick s

/-- One step of the relaxed machine, by some enabled event. -/
def RelaxedStep (s t : State) : Prop := ∃ e, eventEnabled e s = true ∧ eventStep e s = .next t

/-- Any number of relaxed steps. -/
def RelaxedReaches : State → State → Prop := Relation.ReflTransGen RelaxedStep

end Sys2Proof.Machine
end

