-- ==== Sys2Proof/Safety.lean ====
section
/-! DEFINITION. What claims are stated with: the invariants of 10_state.md section 7 as one predicate, the queue's contents, the bytes in
flight, and the streams a run shows (60_exceptions.md R305). -/

namespace Sys2Proof.Machine

/-- The parameters are in their ranges (00_scope.md R7, R8, R11, R12). -/
structure LegalParams (p : Params) : Prop where
  cap_even   : p.rbCapacity % 2 = 0
  cap_le     : p.rbCapacity ≤ 254
  units_pos  : 1 ≤ p.numUnits
  units_le   : p.numUnits ≤ 64
  ticks_pos  : 1 ≤ p.wdtTicks
  ticks_le   : p.wdtTicks ≤ 65535

/-- Every array has the length R50 gives it. -/
structure Sized (s : State) : Prop where
  rb_mem    : s.regs.rb_mem.length = s.params.rbCapacity
  desc_type : s.regs.desc_type.length = s.params.numUnits
  desc_cb   : s.regs.desc_cb.length = s.params.numUnits
  in_val    : s.regs.in_val.length = s.params.numUnits
  out_val   : s.regs.out_val.length = s.params.numUnits

/-- The invariants R60, R61, R63, R64, R65 (first bullet) and R66 (first sentence), with the ranges of R37 and R38, in a legal instance. -/
structure Inv (s : State) : Prop where
  legal      : LegalParams s.params
  sized      : Sized s
  /-- R60; the sum is `rbCount`'s definition once this holds -/
  free_le    : s.regs.rb_free.toNat ≤ s.params.rbCapacity
  /-- R37 -/
  head_lt    : 0 < s.params.rbCapacity → s.regs.rb_head.toNat < s.params.rbCapacity
  /-- R61, which implies R38 -/
  tail_eq    : 0 < s.params.rbCapacity → s.regs.rb_tail.toNat = (s.regs.rb_head.toNat + rbCount s) % s.params.rbCapacity
  /-- R63 -/
  rx_used    : s.regs.rx_state ≠ 0b11#2
  /-- R63 -/
  armed_iff  : s.regs.wdt_armed = true ↔ (s.regs.rx_state = rxAwaitData ∨ s.regs.rx_state = rxResyncDiscard)
  /-- R64 -/
  count_zero : s.regs.wdt_armed = false → s.regs.wdt_count = 0
  /-- R64 -/
  count_lt   : s.regs.wdt_armed = true → s.regs.wdt_count.toNat < s.params.wdtTicks
  /-- R65 -/
  int_iff    : s.regs.tx_int_en = true ↔ (s.regs.mid_pair = true ∨ 0 < rbCount s)
  /-- R66 -/
  events_lt  : ∀ i, s.params.numUnits ≤ i → s.regs.event_word.getLsbD i = false

/-- Every stored type is a unit type, which 42_registry.md R243 keeps (the spec does not list it among its invariants). -/
def TypesLegal (s : State) : Prop := ∀ t ∈ s.regs.desc_type, t.toNat < 10

/-- The stored entries, oldest first (10_state.md R62): slots `rb_head`, `rb_head + 1`, ... mod RB_CAPACITY. -/
def queue (s : State) : List Word16 :=
  (List.range (rbCount s)).map fun k => s.regs.rb_mem.getD ((s.regs.rb_head.toNat + k) % s.params.rbCapacity) 0

/-- One use of the ring (20_memory.md section 4): an Enqueue, or a Dequeue. -/
inductive RingOp where
  | enq (e : Word16)
  | deq
  deriving DecidableEq, Repr

/-- A sequence of uses of the ring, in any interleaving: what came out, the first one first, and the state after it. -/
def runRing : List RingOp → State → Result (List Word16 × State)
  | [], s              => .next ([], s)
  | .enq e :: ops, s   => andThen (enqueue e s) (runRing ops)
  | .deq :: ops, s     => andThen (dequeue s) fun es => andThen (runRing ops es.2) fun rest => .next (es.1 :: rest.1, rest.2)

/-- The entries that a sequence of uses puts in, the first one first. -/
def putIn (ops : List RingOp) : List Word16 :=
  ops.filterMap fun op => match op with
    | .enq e => some e
    | .deq   => none

/-- An entry's two bytes in wire order (20_memory.md R85). -/
def entryBytes (e : Word16) : List Byte := [entryUnit e, entryData e]

/-- The bytes accepted and not yet on the wire, in the order they will reach it: THR, the pending second byte, the queue. -/
def inFlight (s : State) : List Byte :=
  (if s.regs.thr_full then [s.regs.thr_byte] else []) ++ (if s.regs.mid_pair then [s.regs.second_byte] else [])
    ++ (queue s).flatMap entryBytes

/-- TXE's condition as the cycle evaluates it, after its DRAIN and before its command (60_exceptions.md R296). -/
def txeFires (s : State) : Prop :=
  s.regs.tx_int_en = true ∧ (s.regs.thr_full = false ∨ (nextInput s).drain = true)

/-- The byte TXE sends next: the pending second byte (40_transmit.md R167, R170), else the oldest entry's unit byte (R168), else none (R169). -/
def nextByte (s : State) : Option Byte :=
  if s.regs.mid_pair then some s.regs.second_byte else (queue s).head?.map entryUnit

/-- The byte in THR, if there is one. -/
def inThr (s : State) : List Byte := if s.regs.thr_full then [s.regs.thr_byte] else []

/-- The two bytes of the pair that a cycle with the input c accepted, if it did: its command was SUBMIT and the response held at its end is OK. -/
def acceptedBytes (c : CycleInput) (t : State) : List Byte :=
  match c.cmd.map decode, t.rsp_reg with
  | some (.submit u d), some r => if r.code = .ok then [u, d] else []
  | _, _                       => []

/-- The wire byte of the cycle just done (40_transmit.md R175). -/
def wireBytes (t : State) : List Byte := t.ports.wire.toList

/-- `k` cycles: the state after each, oldest first, as far as the machine runs. -/
def trace : Nat → State → List State
  | 0, _     => []
  | k + 1, s =>
    match step s with
    | .next t => t :: trace k t
    | _       => []

/-- R305: the bytes on the wire in `k` cycles. -/
def wireStream (k : Nat) (s : State) : List Byte := (trace k s).flatMap wireBytes

/-- The bytes that `thr_write` stored into THR in `k` cycles (40_transmit.md R161). -/
def writtenStream (k : Nat) (s : State) : List Byte := (trace k s).flatMap fun t => t.ports.tx.toList

/-- R305: the responses presented in `k` cycles. -/
def responseStream (k : Nat) (s : State) : List Response := (trace k s).filterMap (·.ports.rsp)

/-- R305: the notifications presented in `k` cycles. -/
def notificationStream (k : Nat) (s : State) : List Notification := (trace k s).filterMap (·.ports.cb)

/-- The bytes of the pairs accepted in `k` cycles, in the order of acceptance. -/
def acceptedStream : Nat → State → List Byte
  | 0, _     => []
  | k + 1, s =>
    match step s with
    | .next t => acceptedBytes (nextInput s) t ++ acceptedStream k t
    | _       => []

/-- The event dispatches a pair to unit i: a clean byte that completes a pair with that address (41_receive.md R229). -/
def DispatchesTo (i : Nat) (e : Event) (s : State) : Prop :=
  s.regs.rx_state = rxAwaitData ∧ unitIndex s.regs.pending_unit = i ∧ ∃ b, e = .rxc b ∧ rxErr b = false

/-- Any number of events, in any order (60_exceptions.md R302), none of them a dispatch to unit i. -/
def ReachesWithoutDispatch (i : Nat) : State → State → Prop :=
  Relation.ReflTransGen fun s t => ∃ e, eventEnabled e s = true ∧ eventStep e s = .next t ∧ ¬ DispatchesTo i e s

/-- No reset in the next `k` cycles. -/
def NoReset (k : Nat) (s : State) : Prop := ∀ c ∈ s.inputs.take k, c.rst = false

/-- The parts of a state that some later step may read: the queue instead of the ring's slots, and `second_byte`, `thr_byte` and
`pending_unit` only where they are meaningful (93_implementation_defined.md I13 to I16). -/
structure SameButUnread (s t : State) : Prop where
  params       : s.params = t.params
  inputs       : s.inputs = t.inputs
  rsp_reg      : s.rsp_reg = t.rsp_reg
  cb_reg       : s.cb_reg = t.cb_reg
  rx_state     : s.regs.rx_state = t.regs.rx_state
  wdt_armed    : s.regs.wdt_armed = t.regs.wdt_armed
  wdt_count    : s.regs.wdt_count = t.regs.wdt_count
  tx_int_en    : s.regs.tx_int_en = t.regs.tx_int_en
  mid_pair     : s.regs.mid_pair = t.regs.mid_pair
  rb_head      : s.regs.rb_head = t.regs.rb_head
  rb_tail      : s.regs.rb_tail = t.regs.rb_tail
  rb_free      : s.regs.rb_free = t.regs.rb_free
  desc_type    : s.regs.desc_type = t.regs.desc_type
  desc_cb      : s.regs.desc_cb = t.regs.desc_cb
  in_val       : s.regs.in_val = t.regs.in_val
  out_val      : s.regs.out_val = t.regs.out_val
  event_word   : s.regs.event_word = t.regs.event_word
  thr_full     : s.regs.thr_full = t.regs.thr_full
  queue        : queue s = queue t
  pending_unit : s.regs.rx_state = rxAwaitData → s.regs.pending_unit = t.regs.pending_unit
  second_byte  : s.regs.mid_pair = true → s.regs.second_byte = t.regs.second_byte
  thr_byte     : s.regs.thr_full = true → s.regs.thr_byte = t.regs.thr_byte

end Sys2Proof.Machine
end

