-- ==== Sys2Proof/Certificates/Slice0/Obligations.lean ====
section
/-! DEFINITION. The statements for the provers, from the numbered rules of spec/. Each docstring names the rule or section it formalises. -/

open Sys2Proof Sys2Proof.Machine

/-! ## Encoding (30_encoding.md) -/

/-- Sections 3 and 5: every well-formed command survives encoding and decoding, with every operand at every value. -/
def Obligations.DecodeEncodeAgree : Prop :=
  ∀ i : Instr, i.wellFormed = true → decode (encode i) = i ∧ (decode (encode i)).wellFormed = true

/-- Sections 3 and 5 (R131, R135, R145): encoding what a word decodes to gives that word with exactly the ignored bits zero. -/
def Obligations.EncodeDecodeZeroesIgnoredBits : Prop :=
  ∀ w : CmdWord, encode (decode w) = w &&&
    (match (w.extractLsb' 20 4).toNat with
     | 0x1 => 0xF0FFFF#24
     | 0x2 => 0xFF3F01#24
     | 0x3 => 0xF03F01#24
     | 0x4 | 0x5 | 0x6 | 0x7 | 0x8 => 0xF03F00#24
     | _ => 0xF00000#24)

/-- The command encodings written out in 95_test_vectors.md section 0, and words with ignored bits set from its sections 2.7 and 2.8. -/
def Obligations.SpecWordsDecode : Prop :=
  decode 0x240500 = .register 5 4 false ∧ decode 0x230201 = .register 2 3 true ∧ decode 0x300501 = .setCallback 5 true ∧
  decode 0x400500 = .getInput 5 ∧ decode 0x500300 = .getOutput 3 ∧ decode 0x600200 = .getDesc 2 ∧
  decode 0x700500 = .eventGet 5 ∧ decode 0x800500 = .eventClear 5 ∧ decode 0x900000 = .eventClearAll ∧
  decode 0xA00000 = .status ∧ decode 0x100341 = .submit 0x03 0x41 ∧ decode 0x000000 = .nop ∧
  decode 0x24C500 = .register 5 4 false ∧ decode 0x2405FE = .register 5 4 false ∧ decode 0x1FFFFF = .submit 0xFF 0xFF ∧
  decode 0xB00000 = .reservedB ∧ decode 0xC12345 = .reservedC ∧ decode 0xFFFFFF = .reservedF

/-- R135: two words with the same opcode and the same used bits are the same command, and a command answers ILLEGAL exactly when its
opcode is 0xB..0xF, its index is out of range, or it is a REGISTER with a reserved or absent type. -/
def Obligations.IgnoredBitsAndIllegalWords : Prop :=
  (∀ w w' : CmdWord, w.extractLsb' 20 4 = w'.extractLsb' 20 4 →
    (w.extractLsb' 20 4 = 1#4 → w.extractLsb' 0 16 = w'.extractLsb' 0 16) →
    (w.extractLsb' 20 4 = 2#4 → w.extractLsb' 16 4 = w'.extractLsb' 16 4) →
    (2 ≤ (w.extractLsb' 20 4).toNat ∧ (w.extractLsb' 20 4).toNat ≤ 8 → w.extractLsb' 8 6 = w'.extractLsb' 8 6) →
    (w.extractLsb' 20 4 = 2#4 ∨ w.extractLsb' 20 4 = 3#4 → w.getLsbD 0 = w'.getLsbD 0) →
    decode w = decode w') ∧
  (∀ (w : CmdWord) (s t : State), exec (decode w) s = .next t →
    ((∃ d, t.rsp_reg = some ⟨.illegal, d⟩) ↔
      (0xB ≤ (w.extractLsb' 20 4).toNat ∨
       (2 ≤ (w.extractLsb' 20 4).toNat ∧ (w.extractLsb' 20 4).toNat ≤ 8 ∧ s.params.numUnits ≤ (w.extractLsb' 8 6).toNat) ∨
       (w.extractLsb' 20 4 = 2#4 ∧
         (10 ≤ (w.extractLsb' 16 4).toNat ∨
          (w.extractLsb' 16 4 = 3#4 ∧ s.params.hasAckUnit = false) ∨
          (w.extractLsb' 16 4 = 2#4 ∧ s.params.hasErrorUnit = false))))))

/-! ## The cycle and its stops (00_scope.md, 60_exceptions.md, 93_implementation_defined.md) -/

/-- 60_exceptions.md section 3 (R300): a cycle that is no reset is R300's sequence of steps, written out here: DRAIN, TXE, the command that the
decoder reads from the presented word, RXC, TICK, each where its own condition holds in the state the steps before it left. And a word presented
alone, with TXE not enabled, is the whole cycle (how a word is presented is the model's: log 3, log 17). -/
def Obligations.StepRunsThePresentedCommand : Prop :=
  (∀ (s : State) (c : CycleInput) (rest : List CycleInput), Inv s → s.inputs = c :: rest → c.rst = false →
    ∀ s1 : State, s1 = (if c.drain = true ∧ s.regs.thr_full = true then drain (beginCycle s) else beginCycle s) →
    step s =
      andThen (if s1.regs.tx_int_en = true ∧ s1.regs.thr_full = false then txe s1 else .next s1) fun s2 =>
      andThen (match c.cmd with | some w => exec (decode w) s2 | none => .next s2) fun s3 =>
      andThen (match c.rx with | some b => rxc b.data (b.fe || b.pe) s3 | none => .next s3) fun s4 =>
      if c.tick = true then tick s4 else .next s4) ∧
  (∀ (s : State) (nbits w : Nat) (i : Instr), Inv s → (s.regs.tx_int_en = false ∨ s.regs.thr_full = true) →
    decodeTableWord nbits w = some i →
    step (s.withFetchWord nbits w) = exec i
      { s with rsp_reg := none, cb_reg := none, ports := ⟨s.rsp_reg, s.cb_reg, none, none, []⟩ })

/-- 00_scope.md section 3 (R12): a step is refused, by that name, exactly for an instance whose parameters are outside their ranges. R12 does not
say where an instance is refused: that step does it, in a reset cycle too, is the model's choice (log 21). -/
def Obligations.IllegalParametersRefused : Prop :=
  ∀ s : State, step s = .refused .illegalParameters ↔
    ¬(s.params.rbCapacity % 2 = 0 ∧ s.params.rbCapacity ≤ 254 ∧ 1 ≤ s.params.numUnits ∧ s.params.numUnits ≤ 64 ∧
      1 ≤ s.params.wdtTicks ∧ s.params.wdtTicks ≤ 65535)

/-- 93_implementation_defined.md section 1 (U1), and log 7 and log 8: outside a reset cycle, a legal instance faults exactly in the states
that break an invariant. -/
def Obligations.BrokenInvariantFaults : Prop :=
  ∀ s : State, LegalParams s.params → (nextInput s).rst = false → ((∃ f, step s = .fault f) ↔ ¬ Inv s)

/-- 70_reset_and_hazards.md section 1 (R330, R331, R332): a cycle with rst = 1, whatever else is on its inputs, leaves every element of R50 at its
reset value, with no response and no notification held or shown, no thr_write and no byte on the wire. That it runs from a state that breaks an
invariant too is the model's reading (log 8); params, inputs, the held outputs, the wire and the drop labels are fields of the model
(log 1, log 3, log 5, log 15, log 14). -/
def Obligations.ResetCycleLeavesResetValues : Prop :=
  ∀ (s : State) (c : CycleInput) (rest : List CycleInput), LegalParams s.params → s.inputs = c :: rest → c.rst = true →
    ∃ t, step s = .next t ∧
      t.regs.rx_state = 0b00#2 ∧ t.regs.pending_unit = 0x00 ∧ t.regs.wdt_armed = false ∧ t.regs.wdt_count = 0 ∧
      t.regs.tx_int_en = false ∧ t.regs.mid_pair = false ∧ t.regs.second_byte = 0x00 ∧
      t.regs.rb_mem = List.replicate s.params.rbCapacity 0x0000 ∧ t.regs.rb_head = 0 ∧ t.regs.rb_tail = 0 ∧
      t.regs.rb_free.toNat = s.params.rbCapacity ∧
      t.regs.desc_type = List.replicate s.params.numUnits 0 ∧ t.regs.desc_cb = List.replicate s.params.numUnits false ∧
      t.regs.in_val = List.replicate s.params.numUnits 0x00 ∧ t.regs.out_val = List.replicate s.params.numUnits 0x00 ∧
      t.regs.event_word = 0 ∧ t.regs.thr_full = false ∧ t.regs.thr_byte = 0x00 ∧
      t.rsp_reg = none ∧ t.cb_reg = none ∧ t.ports.rsp = none ∧ t.ports.cb = none ∧ t.ports.tx = none ∧ t.ports.wire = none ∧
      t.ports.drops = [] ∧ t.params = s.params ∧ t.inputs = rest

/-! ## Invariants (10_state.md section 7) -/

/-- Section 7: the reset state of every legal instance meets the invariants, State.reset among them. -/
def Obligations.ResetMeetsInvariants : Prop :=
  (∀ (p : Params) (ins : List CycleInput), LegalParams p → Inv (State.resetOf p ins) ∧ TypesLegal (State.resetOf p ins)) ∧
  Inv State.reset ∧ TypesLegal State.reset

/-- Section 7: every step from a state that meets the invariants R60, R61, R63, R64, R65 and R66 leads to one that meets them. -/
def Obligations.StepKeepsInvariants : Prop :=
  ∀ s t : State, Inv s → step s = .next t → Inv t

/-- Sections 7 and 60_exceptions.md section 1 (R290): from a state that meets the invariants no number of cycles faults or is refused,
whatever the environment does. -/
def Obligations.EveryRunGoesOn : Prop :=
  ∀ (k : Nat) (s : State), Inv s → ∃ t, Host.Core.run Sys2Proof.core k s = .next t ∧ Inv t

/-- R60, R61, R63, R64, in every state that any legal instance reaches from its reset under any inputs. -/
def Obligations.ReachableStatesObeyInvariants : Prop :=
  ∀ (p : Params) (ins : List CycleInput) (k : Nat) (t : State), LegalParams p →
    Host.Core.run Sys2Proof.core k (State.resetOf p ins) = .next t →
    (t.regs.rb_free.toNat + rbCount t = p.rbCapacity ∧ t.regs.rb_free.toNat ≤ p.rbCapacity) ∧
    (0 < p.rbCapacity → t.regs.rb_tail.toNat = (t.regs.rb_head.toNat + rbCount t) % p.rbCapacity) ∧
    (t.regs.rx_state ≠ 0b11#2 ∧ (t.regs.wdt_armed = true ↔ t.regs.rx_state = 0b01#2 ∨ t.regs.rx_state = 0b10#2)) ∧
    ((t.regs.wdt_armed = false → t.regs.wdt_count = 0) ∧ (t.regs.wdt_armed = true → t.regs.wdt_count.toNat < p.wdtTicks))

/-- 42_registry.md section 2 (R242, R243), log 22: no step stores a reserved type code. -/
def Obligations.StoredTypesStayLegal : Prop :=
  ∀ s t : State, TypesLegal s → step s = .next t → TypesLegal t

/-- 00_scope.md section 3 and log 1, log 3: a step keeps the parameters and takes one entry of the inputs. -/
def Obligations.ParametersNeverChange : Prop :=
  ∀ s t : State, step s = .next t → t.params = s.params ∧ t.inputs = s.inputs.tail

/-- 60_exceptions.md section 3 (R302): what a cycle does, the relaxed machine can do by enabled events one at a time; and every relaxed
step keeps the invariants and is never stuck where it is enabled. -/
def Obligations.RelaxedMachineCoversCycle : Prop :=
  (∀ s t : State, step s = .next t → RelaxedReaches (beginCycle s) t) ∧
  (∀ (s : State) (e : Event), Inv s → eventEnabled e s = true → ∃ t, eventStep e s = .next t ∧ Inv t)

/-! ## Responses (00_scope.md R19; 30_encoding.md R133) -/

/-- R133: every command that answers a next state leaves exactly one response; FAIL and ILLEGAL leave every other part of the state as it
was and carry a cause code; a command that returns nothing answers OK with 0; the code 0b11 is never produced. -/
def Obligations.EveryCommandAnswersOnce : Prop :=
  ∀ (i : Instr) (s t : State), exec i s = .next t →
    ∃ r, t.rsp_reg = some r ∧ r.code.bits ≠ 0b11#2 ∧
      (r.code = .fail → t = { s with rsp_reg := some r } ∧ (r.data = 0x1 ∨ r.data = 0x2) ∧ ∃ u d, i = .submit u d) ∧
      (r.code = .illegal → t = { s with rsp_reg := some r } ∧ (r.data = 0x3 ∨ r.data = 0x4 ∨ r.data = 0x5 ∨ r.data = 0x6)) ∧
      (r.code = .ok → r.data = 0 ∨ (∃ x, i = .getInput x ∨ i = .getOutput x ∨ i = .getDesc x ∨ i = .eventGet x) ∨ i = .status)

/-- 00_scope.md section 5 (R19) and 60_exceptions.md section 2: TXE, DRAIN, RXC and TICK never write a response. -/
def Obligations.EventsNeverRespond : Prop :=
  (∀ s t : State, txe s = .next t → t.rsp_reg = s.rsp_reg ∧ t.cb_reg = s.cb_reg) ∧
  (∀ s : State, (drain s).rsp_reg = s.rsp_reg ∧ (drain s).cb_reg = s.cb_reg) ∧
  (∀ (b : Byte) (err : Bool) (s t : State), rxc b err s = .next t → t.rsp_reg = s.rsp_reg) ∧
  (∀ s t : State, tick s = .next t → t.rsp_reg = s.rsp_reg ∧ t.cb_reg = s.cb_reg)

/-- R130, R212, R332 and 70_reset_and_hazards.md R343: a cycle holds a response exactly when it was no reset cycle and presented a command;
the next cycle shows the held response and notification, unless it is a reset cycle, which shows none. -/
def Obligations.OutputsAppearOneCycleLater : Prop :=
  ∀ s t t2 : State, step s = .next t → step t = .next t2 →
    (t.rsp_reg.isSome = true ↔ (nextInput s).rst = false ∧ (nextInput s).cmd.isSome = true) ∧
    ((nextInput t).rst = false → t2.ports.rsp = t.rsp_reg ∧ t2.ports.cb = t.cb_reg) ∧
    ((nextInput t).rst = true → t2.ports.rsp = none ∧ t2.ports.cb = none)

/-- 70_reset_and_hazards.md section 3 (R349): the response to a command, and all that is sent, does not depend on the byte or the tick of its own cycle. -/
def Obligations.ResponseIgnoresSameCycleReceive : Prop :=
  ∀ (s t t' : State) (c c' : CycleInput) (rest : List CycleInput),
    c'.rst = c.rst → c'.drain = c.drain → c'.cmd = c.cmd →
    step { s with inputs := c :: rest } = .next t → step { s with inputs := c' :: rest } = .next t' →
    t'.rsp_reg = t.rsp_reg ∧ t'.ports.tx = t.ports.tx ∧ t'.ports.wire = t.ports.wire ∧ t'.regs.out_val = t.regs.out_val

/-! ## SUBMIT (40_transmit.md section 2) -/

/-- R162, R163: SUBMIT in the queueless variant, busy and accepted, with all that it writes. -/
def Obligations.SubmitQueueless : Prop :=
  ∀ (u d : Byte) (s : State), s.params.rbCapacity = 0 → s.regs.out_val.length = s.params.numUnits →
    (s.regs.thr_full = true ∨ s.regs.tx_int_en = true →
      exec (.submit u d) s = .next { s with rsp_reg := some ⟨.fail, 0x1⟩ }) ∧
    (s.regs.thr_full = false → s.regs.tx_int_en = false →
      exec (.submit u d) s = .next { s with
        regs := { s.regs with
          thr_full := true, thr_byte := u, second_byte := d, mid_pair := true, tx_int_en := true
          out_val := if (u.extractLsb' 0 6).toNat < s.params.numUnits then s.regs.out_val.set (u.extractLsb' 0 6).toNat d
                     else s.regs.out_val }
        rsp_reg := some ⟨.ok, 0x0000⟩
        ports := { s.ports with tx := some u } })

/-- R90, R165, R166: SUBMIT in the buffered variant, full and accepted, with all that it writes; THR and mid_pair play no part. -/
def Obligations.SubmitBuffered : Prop :=
  ∀ (u d : Byte) (s : State), 0 < s.params.rbCapacity → Sized s → s.regs.rb_tail.toNat < s.params.rbCapacity →
    (s.regs.rb_free = 0 → exec (.submit u d) s = .next { s with rsp_reg := some ⟨.fail, 0x2⟩ }) ∧
    (s.regs.rb_free ≠ 0 →
      exec (.submit u d) s = .next { s with
        regs := { s.regs with
          rb_mem := s.regs.rb_mem.set s.regs.rb_tail.toNat (u ++ d)
          rb_tail := BitVec.ofNat 8 ((s.regs.rb_tail.toNat + 1) % s.params.rbCapacity)
          rb_free := s.regs.rb_free - 1
          tx_int_en := true
          out_val := if (u.extractLsb' 0 6).toNat < s.params.numUnits then s.regs.out_val.set (u.extractLsb' 0 6).toNat d
                     else s.regs.out_val }
        rsp_reg := some ⟨.ok, 0x0000⟩ })

/-- R164: in either variant an accepted SUBMIT makes D the output value of unit U[5:0], if it is below NUM_UNITS, and of no other unit,
whatever the unit's type; a SUBMIT that fails writes none. -/
def Obligations.AcceptedSubmitRecordsOutput : Prop :=
  ∀ (u d : Byte) (s t : State), exec (.submit u d) s = .next t →
    (t.rsp_reg = some ⟨.ok, 0x0000⟩ → ∀ i, t.regs.out_val[i]? =
      if i = (u.extractLsb' 0 6).toNat ∧ i < s.params.numUnits then some d else s.regs.out_val[i]?) ∧
    (t.rsp_reg ≠ some ⟨.ok, 0x0000⟩ → t.regs.out_val = s.regs.out_val)

/-- 60_exceptions.md section 3 (R301) and 40_transmit.md R163's corner case: a queueless SUBMIT in the cycle whose TXE sends the pending
second byte fails with TX_BUSY, and that byte is the one thr_write of the cycle. -/
def Obligations.SubmitFailsBesideTxe : Prop :=
  ∀ (s t : State) (w : CmdWord) (u d : Byte), Inv s → s.params.rbCapacity = 0 → (nextInput s).rst = false →
    (nextInput s).cmd = some w → decode w = .submit u d → s.regs.tx_int_en = true →
    (s.regs.thr_full = false ∨ (nextInput s).drain = true) → step s = .next t →
    t.rsp_reg = some ⟨.fail, 0x1⟩ ∧ t.ports.tx = some s.regs.second_byte ∧ t.regs.out_val = s.regs.out_val

/-! ## TXE, DRAIN and the wire (40_transmit.md sections 3 to 5) -/

/-- R167: TXE in the queueless variant; with mid_pair = 0, which no run reaches, it faults (93_implementation_defined.md U1). -/
def Obligations.TxeQueueless : Prop :=
  ∀ s : State, s.params.rbCapacity = 0 → s.regs.thr_full = false →
    (s.regs.mid_pair = true → txe s = .next { s with
      regs := { s.regs with thr_full := true, thr_byte := s.regs.second_byte, mid_pair := false, tx_int_en := false }
      ports := { s.ports with tx := some s.regs.second_byte } }) ∧
    (s.regs.mid_pair = false → txe s = .fault .txeNotMidPair)

/-- R91, R168, R169, R170: TXE in the buffered variant, its three cases with all that each writes. -/
def Obligations.TxeBuffered : Prop :=
  ∀ (s : State) (e : Word16), 0 < s.params.rbCapacity → s.regs.thr_full = false → s.regs.rb_free.toNat ≤ s.params.rbCapacity →
    s.regs.rb_mem[s.regs.rb_head.toNat]? = some e →
    (s.regs.mid_pair = false → s.regs.rb_free.toNat < s.params.rbCapacity → txe s = .next { s with
      regs := { s.regs with
        rb_head := BitVec.ofNat 8 ((s.regs.rb_head.toNat + 1) % s.params.rbCapacity), rb_free := s.regs.rb_free + 1
        thr_full := true, thr_byte := e.extractLsb' 8 8, second_byte := e.extractLsb' 0 8, mid_pair := true }
      ports := { s.ports with tx := some (e.extractLsb' 8 8) } }) ∧
    (s.regs.mid_pair = false → s.regs.rb_free.toNat = s.params.rbCapacity →
      txe s = .next { s with regs := { s.regs with tx_int_en := false } }) ∧
    (s.regs.mid_pair = true → txe s = .next { s with
      regs := { s.regs with
        thr_full := true, thr_byte := s.regs.second_byte, mid_pair := false
        tx_int_en := if s.regs.rb_free.toNat = s.params.rbCapacity then false else s.regs.tx_int_en }
      ports := { s.ports with tx := some s.regs.second_byte } })

/-- 60_exceptions.md sections 2 and 3 (R296, R300, R301), 40_transmit.md section 5 (R175): in every cycle that is no reset, whatever command it
presents, TXE fires exactly when tx_int_en = 1 and THR is empty after the cycle's DRAIN: then the one thr_write of the cycle is the byte that is
next to be sent, and mid_pair turns over; otherwise nothing is written but the unit byte of a pair that a queueless SUBMIT of the cycle started.
The wire gets THR's byte exactly when the cycle has a DRAIN and THR is full (log 10, log 15). -/
def Obligations.TxeAndDrainFireWhenEnabled : Prop :=
  ∀ s t : State, Inv s → (nextInput s).rst = false → step s = .next t →
    (0 < s.params.rbCapacity ∨ (∀ w u d, (nextInput s).cmd = some w → decode w ≠ .submit u d) →
      (t.ports.tx.isSome = true ↔ txeFires s)) ∧
    (txeFires s → (∃ b, nextByte s = some b ∧ t.ports.tx = some b) ∧ t.regs.mid_pair = !s.regs.mid_pair) ∧
    (¬ txeFires s → t.ports.tx = if s.params.rbCapacity = 0 then (acceptedBytes (nextInput s) t).head? else none) ∧
    t.ports.wire = (if (nextInput s).drain = true ∧ s.regs.thr_full = true then some s.regs.thr_byte else none)

/-- Sections 4 and 20_memory.md section 6 (R100, R171, R172): in a cycle without reset, the byte that reaches the wire followed by the
bytes in flight after it are the bytes in flight before it followed by the two bytes of the pair it accepted, if it accepted one. -/
def Obligations.CycleConservesBytesInFlight : Prop :=
  ∀ s t : State, Inv s → (nextInput s).rst = false → step s = .next t →
    wireBytes t ++ inFlight t = inFlight s ++ acceptedBytes (nextInput s) t

/-- R100: over any number of cycles without reset, the bytes reach the wire in the order thr_write stored them; and from the reset state of any
legal instance the wire's bytes followed by the bytes still in flight are the accepted pairs' bytes, unit byte then data byte, in acceptance order
(from any state that meets the invariants, after the bytes that were already in flight). -/
def Obligations.WireShowsAcceptedPairsInOrder : Prop :=
  (∀ (k : Nat) (s t : State), Inv s → NoReset k s → Host.Core.run Sys2Proof.core k s = .next t →
    wireStream k s ++ inThr t = inThr s ++ writtenStream k s ∧
    wireStream k s ++ inFlight t = inFlight s ++ acceptedStream k s) ∧
  (∀ (k : Nat) (p : Params) (ins : List CycleInput), LegalParams p → NoReset k (State.resetOf p ins) →
    ∃ t, Host.Core.run Sys2Proof.core k (State.resetOf p ins) = .next t ∧
      wireStream k (State.resetOf p ins) ++ inFlight t = acceptedStream k (State.resetOf p ins))

/-- 70_reset_and_hazards.md section 3 (R347): a DRAIN while a second byte is pending or the queue is not empty leaves THR full again. -/
def Obligations.DrainedThrIsRefilled : Prop :=
  ∀ s t : State, Inv s → (nextInput s).rst = false → (nextInput s).drain = true → s.regs.thr_full = true →
    (s.regs.mid_pair = true ∨ 0 < rbCount s) → step s = .next t →
    t.regs.thr_full = true ∧ t.ports.wire = some s.regs.thr_byte ∧ t.ports.tx = some t.regs.thr_byte

/-- R92: whatever sequence of Enqueues and Dequeues a ring goes through, the entries come out in the order they went in, after those already
stored, across every wrap of the indices; and any number of entries up to the free slots can be put in and all of them taken out again. -/
def Obligations.RingBufferIsFifo : Prop :=
  (∀ (s t : State) (ops : List RingOp) (outs : List Word16), Inv s → 0 < s.params.rbCapacity →
    runRing ops s = .next (outs, t) → queue s ++ putIn ops = outs ++ queue t) ∧
  (∀ (s : State) (es : List Word16), Inv s → 0 < s.params.rbCapacity → es.length ≤ s.regs.rb_free.toNat →
    ∃ t, runRing (es.map .enq ++ List.replicate (rbCount s + es.length) .deq) s = .next (queue s ++ es, t) ∧ rbCount t = 0)

/-! ## RXC, Dispatch and the watchdog (41_receive.md) -/

/-- 41_receive.md section 1 (R201, R202): a byte in AwaitUnit, clean and errored, with all that each writes. The drop label in ports is the
model's record (log 14). -/
def Obligations.RxcInAwaitUnit : Prop :=
  ∀ (b : Byte) (s : State), s.regs.rx_state = 0b00#2 →
    rxc b false s = .next { s with
      regs := { s.regs with pending_unit := b, rx_state := 0b01#2, wdt_armed := true, wdt_count := 0 } } ∧
    rxc b true s = .next { s with
      regs := { s.regs with rx_state := 0b10#2, wdt_armed := true, wdt_count := 0 }
      ports := { s.ports with drops := s.ports.drops ++ [.unitFraming] } }

/-- 41_receive.md section 1 (R204, R205, R206): an errored byte in AwaitData and any byte in ResyncDiscard return to AwaitUnit, disarm and dispatch
nothing; rx_state 0b11 faults. The drop labels in ports are the model's record (log 14). -/
def Obligations.RxcDropsTheByte : Prop :=
  ∀ (b : Byte) (err : Bool) (s : State),
    (s.regs.rx_state = 0b01#2 → rxc b true s = .next { s with
      regs := { s.regs with rx_state := 0b00#2, wdt_armed := false, wdt_count := 0 }
      ports := { s.ports with drops := s.ports.drops ++ [.dataFraming] } }) ∧
    (s.regs.rx_state = 0b10#2 → rxc b err s = .next { s with
      regs := { s.regs with rx_state := 0b00#2, wdt_armed := false, wdt_count := 0 }
      ports := { s.ports with drops := s.ports.drops ++ [.resync] } }) ∧
    (s.regs.rx_state = 0b11#2 → rxc b err s = .fault .rxStateUnused)

/-- 41_receive.md sections 1 and 2 (R203, R210, R211): a clean byte in AwaitData returns to AwaitUnit, disarms, and dispatches the pair: a no-op for
an index that is out of range or Undefined, and for every other type a store, the event bit and, with a callback, the notification of the full
unit byte. The drop label in ports is the model's record (log 14), and that a type code 10 to 15, which no step stores, counts as a type other
than Undefined is the model's reading (log 22). -/
def Obligations.RxcCompletesThePair : Prop :=
  ∀ (b : Byte) (s : State), s.regs.rx_state = 0b01#2 → Sized s → s.params.numUnits ≤ 64 →
    (s.params.numUnits ≤ (s.regs.pending_unit.extractLsb' 0 6).toNat ∨
        s.regs.desc_type[(s.regs.pending_unit.extractLsb' 0 6).toNat]? = some 0 →
      rxc b false s = .next { s with
        regs := { s.regs with rx_state := 0b00#2, wdt_armed := false, wdt_count := 0 }
        ports := { s.ports with drops := s.ports.drops ++ [.unregistered] } }) ∧
    (∀ (ty : BitVec 4) (cb : Bool), (s.regs.pending_unit.extractLsb' 0 6).toNat < s.params.numUnits →
      s.regs.desc_type[(s.regs.pending_unit.extractLsb' 0 6).toNat]? = some ty → ty ≠ 0 →
      s.regs.desc_cb[(s.regs.pending_unit.extractLsb' 0 6).toNat]? = some cb →
      rxc b false s = .next { s with
        regs := { s.regs with
          rx_state := 0b00#2, wdt_armed := false, wdt_count := 0
          in_val := s.regs.in_val.set (s.regs.pending_unit.extractLsb' 0 6).toNat b
          event_word := s.regs.event_word ||| BitVec.twoPow 64 (s.regs.pending_unit.extractLsb' 0 6).toNat }
        cb_reg := if cb = true then some ⟨s.regs.pending_unit, b⟩ else s.cb_reg })

/-- 41_receive.md section 3 (R223, R224, R225): TICK disarmed, counting and expiring, with all that each writes. The drop label in ports is the
model's record (log 14). -/
def Obligations.TickCountsOrExpires : Prop :=
  ∀ s : State,
    (s.regs.wdt_armed = false → tick s = .next s) ∧
    (s.regs.wdt_armed = true → s.regs.wdt_count.toNat + 1 < s.params.wdtTicks →
      tick s = .next { s with regs := { s.regs with wdt_count := s.regs.wdt_count + 1 } }) ∧
    (s.regs.wdt_armed = true → s.regs.wdt_count.toNat + 1 = s.params.wdtTicks →
      tick s = .next { s with
        regs := { s.regs with rx_state := 0b00#2, wdt_armed := false, wdt_count := 0 }
        ports := { s.ports with drops := s.ports.drops ++ [.timeout] } })

/-- 41_receive.md section 3 (R227): a clean data byte beats the tick of its own cycle and completes its pair; a first byte's cycle counts its tick,
and expires at once if WDT_TICKS = 1. That a timeout shows as a drop label in ports is the model's record (log 14), and that a type code 10 to 15,
which no step stores, is a registered one is the model's reading (log 22). -/
def Obligations.ByteComesBeforeTick : Prop :=
  ∀ (s t : State) (b : RxByte), Inv s → (nextInput s).rst = false → (nextInput s).rx = some b → (nextInput s).tick = true →
    step s = .next t →
    (s.regs.rx_state = 0b01#2 → b.fe = false → b.pe = false →
      t.regs.rx_state = 0b00#2 ∧ t.regs.wdt_armed = false ∧ t.regs.wdt_count = 0 ∧ DropLabel.timeout ∉ t.ports.drops ∧
      ∀ ty, t.regs.desc_type[(s.regs.pending_unit.extractLsb' 0 6).toNat]? = some ty → ty ≠ 0 →
        t.regs.in_val[(s.regs.pending_unit.extractLsb' 0 6).toNat]? = some b.data ∧
        t.regs.event_word.getLsbD (s.regs.pending_unit.extractLsb' 0 6).toNat = true) ∧
    (s.regs.rx_state = 0b00#2 → s.params.wdtTicks = 1 →
      t.regs.rx_state = 0b00#2 ∧ t.regs.wdt_armed = false ∧ t.regs.wdt_count = 0 ∧ DropLabel.timeout ∈ t.ports.drops) ∧
    (s.regs.rx_state = 0b00#2 → 1 < s.params.wdtTicks →
      t.regs.rx_state = (if b.fe = true ∨ b.pe = true then 0b10#2 else 0b01#2) ∧ t.regs.wdt_armed = true ∧ t.regs.wdt_count = 1)

/-- 41_receive.md section 3 (R224, R226) under the tick fairness of 60_exceptions.md R311: an armed watchdog that gets its missing ticks and no
byte forces AwaitUnit, disarmed, whatever else the cycles do; and in no cycle on the way is anything dispatched: after each one no notification
is held, no input value has changed, and no event bit has risen. That the last cycle's timeout shows as a drop label is the model's record (log 14). -/
def Obligations.WatchdogBoundsRecovery : Prop :=
  ∀ (s : State) (ins rest : List CycleInput), Inv s → s.regs.wdt_armed = true → s.inputs = ins ++ rest →
    s.regs.wdt_count.toNat + ins.length = s.params.wdtTicks →
    (∀ c ∈ ins, c.rst = false ∧ c.rx = none ∧ c.tick = true) →
    (∃ t, Host.Core.run Sys2Proof.core ins.length s = .next t ∧ t.regs.rx_state = 0b00#2 ∧ t.regs.wdt_armed = false ∧
      t.regs.in_val = s.regs.in_val ∧ t.cb_reg = none ∧ DropLabel.timeout ∈ t.ports.drops ∧
      ∀ i, t.regs.event_word.getLsbD i = true → s.regs.event_word.getLsbD i = true) ∧
    (∀ (j : Nat) (x y : State), j < ins.length → Host.Core.run Sys2Proof.core j s = .next x → step x = .next y →
      y.cb_reg = none ∧ y.regs.in_val = s.regs.in_val ∧
      ∀ i, y.regs.event_word.getLsbD i = true → x.regs.event_word.getLsbD i = true)

/-- R96: an event bit rises only by a dispatch to its unit, falls only by EVENT_CLEAR of it, EVENT_CLEAR_ALL or RESET, and a dispatch leaves
its bit set whatever command its cycle ran. -/
def Obligations.EventBitTransitions : Prop :=
  ∀ (s t : State) (i : Nat), Inv s → step s = .next t →
    (s.regs.event_word.getLsbD i = false → t.regs.event_word.getLsbD i = true →
      (nextInput s).rst = false ∧ s.regs.rx_state = 0b01#2 ∧ (s.regs.pending_unit.extractLsb' 0 6).toNat = i ∧
      i < s.params.numUnits ∧ (∃ ty, t.regs.desc_type[i]? = some ty ∧ ty ≠ 0) ∧
      ∃ b, (nextInput s).rx = some b ∧ b.fe = false ∧ b.pe = false ∧ t.regs.in_val[i]? = some b.data) ∧
    (s.regs.event_word.getLsbD i = true → t.regs.event_word.getLsbD i = false →
      (nextInput s).rst = true ∨
      ∃ w, (nextInput s).cmd = some w ∧
        (decode w = .eventClearAll ∨ ∃ idx, decode w = .eventClear idx ∧ idx.toNat = i ∧ i < s.params.numUnits)) ∧
    ((nextInput s).rst = false → s.regs.rx_state = 0b01#2 → (s.regs.pending_unit.extractLsb' 0 6).toNat = i → i < s.params.numUnits →
      (∃ ty, t.regs.desc_type[i]? = some ty ∧ ty ≠ 0) →
      (∃ b, (nextInput s).rx = some b ∧ b.fe = false ∧ b.pe = false) → t.regs.event_word.getLsbD i = true)

/-- R212 with R210 and R216 (41_receive.md section 2): a cycle holds a notification exactly when its byte completed a pair for a registered unit whose
callback flag, after the cycle's own command, is 1; the notification is the full unit byte and the data byte. -/
def Obligations.NotificationExactlyAtDispatch : Prop :=
  ∀ (s t : State) (u d : Byte), Inv s → (nextInput s).rst = false → step s = .next t →
    (t.cb_reg = some ⟨u, d⟩ ↔
      s.regs.rx_state = 0b01#2 ∧ u = s.regs.pending_unit ∧ (nextInput s).rx.map RxByte.data = some d ∧
      (nextInput s).rx.map rxErr = some false ∧ (u.extractLsb' 0 6).toNat < s.params.numUnits ∧
      (∃ ty, t.regs.desc_type[(u.extractLsb' 0 6).toNat]? = some ty ∧ ty ≠ 0) ∧
      t.regs.desc_cb[(u.extractLsb' 0 6).toNat]? = some true)

/-- 00_scope.md section 6 (half-duplex: the paths are independent) and 10_state.md section 6 (R50's column 'written by'): TXE and DRAIN write no
element of the receive path and of the registry, and RXC and TICK none of the transmit path and of the descriptors. -/
def Obligations.PathsAreIndependent : Prop :=
  (∀ s t : State, (txe s = .next t ∨ t = drain s) →
    t.regs.rx_state = s.regs.rx_state ∧ t.regs.pending_unit = s.regs.pending_unit ∧ t.regs.wdt_armed = s.regs.wdt_armed ∧
    t.regs.wdt_count = s.regs.wdt_count ∧ t.regs.desc_type = s.regs.desc_type ∧ t.regs.desc_cb = s.regs.desc_cb ∧
    t.regs.in_val = s.regs.in_val ∧ t.regs.out_val = s.regs.out_val ∧ t.regs.event_word = s.regs.event_word ∧
    t.regs.rb_mem = s.regs.rb_mem ∧ t.regs.rb_tail = s.regs.rb_tail) ∧
  (∀ s t : State, (tick s = .next t ∨ ∃ b err, rxc b err s = .next t) →
    t.regs.tx_int_en = s.regs.tx_int_en ∧ t.regs.mid_pair = s.regs.mid_pair ∧ t.regs.second_byte = s.regs.second_byte ∧
    t.regs.rb_mem = s.regs.rb_mem ∧ t.regs.rb_head = s.regs.rb_head ∧ t.regs.rb_tail = s.regs.rb_tail ∧
    t.regs.rb_free = s.regs.rb_free ∧ t.regs.desc_type = s.regs.desc_type ∧ t.regs.desc_cb = s.regs.desc_cb ∧
    t.regs.out_val = s.regs.out_val ∧ t.regs.thr_full = s.regs.thr_full ∧ t.regs.thr_byte = s.regs.thr_byte)

/-- 93_implementation_defined.md section 4 (I13 to I16) and 10_state.md R67: two states that differ only in stale ring slots, in second_byte without
a pending second byte, in thr_byte with THR empty, or in pending_unit outside AwaitData step alike, show the same and differ only so again. -/
def Obligations.UnreadRegistersDoNotMatter : Prop :=
  ∀ s s' t : State, Inv s → Inv s' → SameButUnread s s' → step s = .next t →
    ∃ t', step s' = .next t' ∧ SameButUnread t t' ∧ t.ports = t'.ports

/-! ## The registry and the event store (42_registry.md) -/

/-- R240, R242, R243: REGISTER's four outcomes, its causes in their order, and all that it writes. -/
def Obligations.RegisterStoresDescriptor : Prop :=
  ∀ (idx : Byte) (ty : BitVec 4) (cb : Bool) (s : State), Sized s →
    (s.params.numUnits ≤ idx.toNat → exec (.register idx ty cb) s = .next { s with rsp_reg := some ⟨.illegal, 0x4⟩ }) ∧
    (idx.toNat < s.params.numUnits → 10 ≤ ty.toNat →
      exec (.register idx ty cb) s = .next { s with rsp_reg := some ⟨.illegal, 0x5⟩ }) ∧
    (idx.toNat < s.params.numUnits → (ty = 3 ∧ s.params.hasAckUnit = false) ∨ (ty = 2 ∧ s.params.hasErrorUnit = false) →
      exec (.register idx ty cb) s = .next { s with rsp_reg := some ⟨.illegal, 0x6⟩ }) ∧
    (idx.toNat < s.params.numUnits → ty.toNat < 10 → (ty = 3 → s.params.hasAckUnit = true) → (ty = 2 → s.params.hasErrorUnit = true) →
      exec (.register idx ty cb) s = .next { s with
        regs := { s.regs with desc_type := s.regs.desc_type.set idx.toNat ty, desc_cb := s.regs.desc_cb.set idx.toNat cb }
        rsp_reg := some ⟨.ok, 0x0000⟩ })

/-- R244: SET_CALLBACK, out of range and in range, registered or not, with all that it writes. -/
def Obligations.SetCallbackStoresFlag : Prop :=
  ∀ (idx : Byte) (cb : Bool) (s : State), Sized s →
    (s.params.numUnits ≤ idx.toNat → exec (.setCallback idx cb) s = .next { s with rsp_reg := some ⟨.illegal, 0x4⟩ }) ∧
    (idx.toNat < s.params.numUnits → exec (.setCallback idx cb) s = .next { s with
      regs := { s.regs with desc_cb := s.regs.desc_cb.set idx.toNat cb }
      rsp_reg := some ⟨.ok, 0x0000⟩ })

/-- 42_registry.md section 2 (the pseudocode and 'State written' of R245 and R246): GET_INPUT and GET_OUTPUT answer the stored byte, zero-extended, for every unit in range, and change nothing else. -/
def Obligations.GetInputAndGetOutput : Prop :=
  ∀ (idx : Byte) (s : State), Sized s →
    (s.params.numUnits ≤ idx.toNat →
      exec (.getInput idx) s = .next { s with rsp_reg := some ⟨.illegal, 0x4⟩ } ∧
      exec (.getOutput idx) s = .next { s with rsp_reg := some ⟨.illegal, 0x4⟩ }) ∧
    (idx.toNat < s.params.numUnits →
      ∃ vi vo, s.regs.in_val[idx.toNat]? = some vi ∧ s.regs.out_val[idx.toNat]? = some vo ∧
        exec (.getInput idx) s = .next { s with rsp_reg := some ⟨.ok, 0#8 ++ vi⟩ } ∧
        exec (.getOutput idx) s = .next { s with rsp_reg := some ⟨.ok, 0#8 ++ vo⟩ })

/-- R127, R247, R248: GET_DESC answers the descriptor word and EVENT_GET the event bit, for every unit in range, and change nothing else. -/
def Obligations.GetDescAndEventGet : Prop :=
  ∀ (idx : Byte) (s : State), Sized s → s.params.numUnits ≤ 64 →
    (s.params.numUnits ≤ idx.toNat →
      exec (.getDesc idx) s = .next { s with rsp_reg := some ⟨.illegal, 0x4⟩ } ∧
      exec (.eventGet idx) s = .next { s with rsp_reg := some ⟨.illegal, 0x4⟩ }) ∧
    (idx.toNat < s.params.numUnits →
      (∃ ty cb, s.regs.desc_type[idx.toNat]? = some ty ∧ s.regs.desc_cb[idx.toNat]? = some cb ∧
        exec (.getDesc idx) s = .next { s with rsp_reg := some ⟨.ok, 0#11 ++ BitVec.ofBool cb ++ ty⟩ }) ∧
      exec (.eventGet idx) s = .next { s with
        rsp_reg := some ⟨.ok, if s.regs.event_word.getLsbD idx.toNat = true then 0x0001 else 0x0000⟩ })

/-- R249, R250: EVENT_CLEAR clears its bit and no other, EVENT_CLEAR_ALL all 64, and nothing else changes. -/
def Obligations.EventClears : Prop :=
  ∀ (idx : Byte) (s : State), s.params.numUnits ≤ 64 →
    (s.params.numUnits ≤ idx.toNat → exec (.eventClear idx) s = .next { s with rsp_reg := some ⟨.illegal, 0x4⟩ }) ∧
    (idx.toNat < s.params.numUnits → ∃ w : BitVec 64,
      (∀ i, w.getLsbD i = (s.regs.event_word.getLsbD i && decide (i ≠ idx.toNat))) ∧
      exec (.eventClear idx) s = .next { s with regs := { s.regs with event_word := w }, rsp_reg := some ⟨.ok, 0x0000⟩ }) ∧
    exec .eventClearAll s = .next { s with
      regs := { s.regs with event_word := 0x0000000000000000#64 }
      rsp_reg := some ⟨.ok, 0x0000⟩ }

/-- R241, R252: NOP answers OK with 0 and the five reserved opcodes answer ILLEGAL with cause 3, in every state, and change nothing else. -/
def Obligations.NopAndReservedOpcodes : Prop :=
  ∀ s : State,
    exec .nop s = .next { s with rsp_reg := some ⟨.ok, 0x0000⟩ } ∧
    ∀ i : Instr, (i = .reservedB ∨ i = .reservedC ∨ i = .reservedD ∨ i = .reservedE ∨ i = .reservedF) →
      exec i s = .next { s with rsp_reg := some ⟨.illegal, 0x0003⟩ }

/-- R128, R251: STATUS answers in every state, changes nothing else, and its word has the layout of R128 bit by bit. -/
def Obligations.StatusShowsControlState : Prop :=
  ∀ s : State, ∃ w : Word16, exec .status s = .next { s with rsp_reg := some ⟨.ok, w⟩ } ∧
    w.extractLsb' 8 8 = s.regs.rb_free ∧ w.getLsbD 7 = false ∧ w.getLsbD 6 = decide (0 < s.params.rbCapacity) ∧
    w.getLsbD 5 = s.regs.thr_full ∧ w.getLsbD 4 = s.regs.tx_int_en ∧ w.getLsbD 3 = s.regs.mid_pair ∧
    w.getLsbD 2 = s.regs.wdt_armed ∧ w.extractLsb' 0 2 = s.regs.rx_state ∧
    (s.params.rbCapacity = 0 → s.regs.rb_free.toNat ≤ s.params.rbCapacity → w.extractLsb' 8 8 = 0)

/-- R95: GET_INPUT, GET_OUTPUT, GET_DESC, EVENT_GET, STATUS and NOP change no element of R50 and can be repeated with the same answer. -/
def Obligations.ReadsChangeNothing : Prop :=
  ∀ (i : Instr) (s t : State),
    (i = .nop ∨ i = .status ∨ ∃ x, i = .getInput x ∨ i = .getOutput x ∨ i = .getDesc x ∨ i = .eventGet x) →
    exec i s = .next t → t = { s with rsp_reg := t.rsp_reg } ∧ exec i t = .next t

/-- R254: REGISTER and SET_CALLBACK change only desc_type and desc_cb, at their index, and every stored value and event bit is kept. -/
def Obligations.RegistryCommandsKeepStorage : Prop :=
  ∀ (i : Instr) (s t : State) (idx : Byte), ((∃ ty cb, i = .register idx ty cb) ∨ ∃ cb, i = .setCallback idx cb) →
    exec i s = .next t →
    t = { s with regs := { s.regs with desc_type := t.regs.desc_type, desc_cb := t.regs.desc_cb }, rsp_reg := t.rsp_reg } ∧
    ∀ j, j ≠ idx.toNat → t.regs.desc_type[j]? = s.regs.desc_type[j]? ∧ t.regs.desc_cb[j]? = s.regs.desc_cb[j]?

/-- R255: EVENT_CLEAR i then EVENT_GET i answers OK with 0, whatever came before (a dispatch to i, say) and whatever events come between them,
provided none of those is a dispatch to i; and clearing a clear bit changes no element of R50. -/
def Obligations.EventClearIsIdempotent : Prop :=
  (∀ (idx : Byte) (s s1 s2 s3 : State), idx.toNat < s.params.numUnits → exec (.eventClear idx) s = .next s1 →
    ReachesWithoutDispatch idx.toNat s1 s2 → exec (.eventGet idx) s2 = .next s3 → s3.rsp_reg = some ⟨.ok, 0x0000⟩) ∧
  (∀ (idx : Byte) (s t : State), s.regs.event_word.getLsbD idx.toNat = false → exec (.eventClear idx) s = .next t → t.regs = s.regs)
end

