-- ==== Sys2Proof/Laws/Encoding.lean ====
section
/-! SUPPORT. The fields of a packed word, and of the bytes the encoder writes (30_encoding.md R131, R136). -/

namespace Sys2Proof

theorem opField_packWord (op a : BitVec 4) (u d : Byte) : opField (packWord op a u d) = op := by
  apply BitVec.eq_of_getLsbD_eq
  intro i hi
  simp only [opField, packWord, BitVec.getLsbD_extractLsb', BitVec.getLsbD_append, hi, decide_true, Bool.true_and]
  rw [if_neg (by omega), if_neg (by omega), if_neg (by omega)]
  congr 1
  omega

theorem aField_packWord (op a : BitVec 4) (u d : Byte) : aField (packWord op a u d) = a := by
  apply BitVec.eq_of_getLsbD_eq
  intro i hi
  simp only [aField, packWord, BitVec.getLsbD_extractLsb', BitVec.getLsbD_append, hi, decide_true, Bool.true_and]
  rw [if_neg (by omega), if_neg (by omega), if_pos (by omega)]
  congr 1
  omega

theorem uField_packWord (op a : BitVec 4) (u d : Byte) : uField (packWord op a u d) = u := by
  apply BitVec.eq_of_getLsbD_eq
  intro i hi
  simp only [uField, packWord, BitVec.getLsbD_extractLsb', BitVec.getLsbD_append, hi, decide_true, Bool.true_and]
  rw [if_neg (by omega), if_pos (by omega)]
  congr 1
  omega

theorem dField_packWord (op a : BitVec 4) (u d : Byte) : dField (packWord op a u d) = d := by
  apply BitVec.eq_of_getLsbD_eq
  intro i hi
  simp only [dField, packWord, BitVec.getLsbD_extractLsb', BitVec.getLsbD_append, hi, decide_true, Bool.true_and]
  rw [if_pos (by omega)]
  congr 1
  omega

/-- A six-bit index survives U[5:0]. -/
theorem setWidth_indexByte {idx : Byte} (h : sixBitIndex idx = true) : ((indexByte idx).extractLsb' 0 6).setWidth 8 = idx := by
  revert idx
  decide

theorem getLsbD_flagByte (cb : Bool) : (flagByte cb).getLsbD 0 = cb := by revert cb; decide

end Sys2Proof
end

