-- ==== Sys2Proof/Laws/State.lean ====
section
/-! SUPPORT. One lemma per field per named update of the state, each true by rfl, so that no later proof unfolds an update. -/

namespace Sys2Proof.Machine

/-! ## Responses, notification, annotations -/

@[simp] theorem respond_params (c : RspCode) (d : Word16) (s : State) : (respond c d s).params = s.params := rfl
@[simp] theorem respond_inputs (c : RspCode) (d : Word16) (s : State) : (respond c d s).inputs = s.inputs := rfl
@[simp] theorem respond_rsp_reg (c : RspCode) (d : Word16) (s : State) : (respond c d s).rsp_reg = some ⟨c, d⟩ := rfl
@[simp] theorem respond_cb_reg (c : RspCode) (d : Word16) (s : State) : (respond c d s).cb_reg = s.cb_reg := rfl
@[simp] theorem respond_ports (c : RspCode) (d : Word16) (s : State) : (respond c d s).ports = s.ports := rfl
@[simp] theorem respond_regs (c : RspCode) (d : Word16) (s : State) : (respond c d s).regs = s.regs := rfl

@[simp] theorem emitCb_params (u d : Byte) (s : State) : (emitCb u d s).params = s.params := rfl
@[simp] theorem emitCb_inputs (u d : Byte) (s : State) : (emitCb u d s).inputs = s.inputs := rfl
@[simp] theorem emitCb_rsp_reg (u d : Byte) (s : State) : (emitCb u d s).rsp_reg = s.rsp_reg := rfl
@[simp] theorem emitCb_cb_reg (u d : Byte) (s : State) : (emitCb u d s).cb_reg = some ⟨u, d⟩ := rfl
@[simp] theorem emitCb_ports (u d : Byte) (s : State) : (emitCb u d s).ports = s.ports := rfl
@[simp] theorem emitCb_regs (u d : Byte) (s : State) : (emitCb u d s).regs = s.regs := rfl

@[simp] theorem noteDrop_params (l : DropLabel) (s : State) : (noteDrop l s).params = s.params := rfl
@[simp] theorem noteDrop_inputs (l : DropLabel) (s : State) : (noteDrop l s).inputs = s.inputs := rfl
@[simp] theorem noteDrop_rsp_reg (l : DropLabel) (s : State) : (noteDrop l s).rsp_reg = s.rsp_reg := rfl
@[simp] theorem noteDrop_cb_reg (l : DropLabel) (s : State) : (noteDrop l s).cb_reg = s.cb_reg := rfl
@[simp] theorem noteDrop_ports (l : DropLabel) (s : State) : (noteDrop l s).ports = { s.ports with drops := s.ports.drops ++ [l] } := rfl
@[simp] theorem noteDrop_regs (l : DropLabel) (s : State) : (noteDrop l s).regs = s.regs := rfl

/-! ## Watchdog, receive state, holding register -/

@[simp] theorem armWdt_params (s : State) : (armWdt s).params = s.params := rfl
@[simp] theorem armWdt_inputs (s : State) : (armWdt s).inputs = s.inputs := rfl
@[simp] theorem armWdt_rsp_reg (s : State) : (armWdt s).rsp_reg = s.rsp_reg := rfl
@[simp] theorem armWdt_cb_reg (s : State) : (armWdt s).cb_reg = s.cb_reg := rfl
@[simp] theorem armWdt_ports (s : State) : (armWdt s).ports = s.ports := rfl
@[simp] theorem armWdt_rx_state (s : State) : (armWdt s).regs.rx_state = s.regs.rx_state := rfl
@[simp] theorem armWdt_pending_unit (s : State) : (armWdt s).regs.pending_unit = s.regs.pending_unit := rfl
@[simp] theorem armWdt_wdt_armed (s : State) : (armWdt s).regs.wdt_armed = true := rfl
@[simp] theorem armWdt_wdt_count (s : State) : (armWdt s).regs.wdt_count = 0 := rfl
@[simp] theorem armWdt_tx_int_en (s : State) : (armWdt s).regs.tx_int_en = s.regs.tx_int_en := rfl
@[simp] theorem armWdt_mid_pair (s : State) : (armWdt s).regs.mid_pair = s.regs.mid_pair := rfl
@[simp] theorem armWdt_second_byte (s : State) : (armWdt s).regs.second_byte = s.regs.second_byte := rfl
@[simp] theorem armWdt_rb_mem (s : State) : (armWdt s).regs.rb_mem = s.regs.rb_mem := rfl
@[simp] theorem armWdt_rb_head (s : State) : (armWdt s).regs.rb_head = s.regs.rb_head := rfl
@[simp] theorem armWdt_rb_tail (s : State) : (armWdt s).regs.rb_tail = s.regs.rb_tail := rfl
@[simp] theorem armWdt_rb_free (s : State) : (armWdt s).regs.rb_free = s.regs.rb_free := rfl
@[simp] theorem armWdt_desc_type (s : State) : (armWdt s).regs.desc_type = s.regs.desc_type := rfl
@[simp] theorem armWdt_desc_cb (s : State) : (armWdt s).regs.desc_cb = s.regs.desc_cb := rfl
@[simp] theorem armWdt_in_val (s : State) : (armWdt s).regs.in_val = s.regs.in_val := rfl
@[simp] theorem armWdt_out_val (s : State) : (armWdt s).regs.out_val = s.regs.out_val := rfl
@[simp] theorem armWdt_event_word (s : State) : (armWdt s).regs.event_word = s.regs.event_word := rfl
@[simp] theorem armWdt_thr_full (s : State) : (armWdt s).regs.thr_full = s.regs.thr_full := rfl
@[simp] theorem armWdt_thr_byte (s : State) : (armWdt s).regs.thr_byte = s.regs.thr_byte := rfl

@[simp] theorem disarmWdt_params (s : State) : (disarmWdt s).params = s.params := rfl
@[simp] theorem disarmWdt_inputs (s : State) : (disarmWdt s).inputs = s.inputs := rfl
@[simp] theorem disarmWdt_rsp_reg (s : State) : (disarmWdt s).rsp_reg = s.rsp_reg := rfl
@[simp] theorem disarmWdt_cb_reg (s : State) : (disarmWdt s).cb_reg = s.cb_reg := rfl
@[simp] theorem disarmWdt_ports (s : State) : (disarmWdt s).ports = s.ports := rfl
@[simp] theorem disarmWdt_rx_state (s : State) : (disarmWdt s).regs.rx_state = s.regs.rx_state := rfl
@[simp] theorem disarmWdt_pending_unit (s : State) : (disarmWdt s).regs.pending_unit = s.regs.pending_unit := rfl
@[simp] theorem disarmWdt_wdt_armed (s : State) : (disarmWdt s).regs.wdt_armed = false := rfl
@[simp] theorem disarmWdt_wdt_count (s : State) : (disarmWdt s).regs.wdt_count = 0 := rfl
@[simp] theorem disarmWdt_tx_int_en (s : State) : (disarmWdt s).regs.tx_int_en = s.regs.tx_int_en := rfl
@[simp] theorem disarmWdt_mid_pair (s : State) : (disarmWdt s).regs.mid_pair = s.regs.mid_pair := rfl
@[simp] theorem disarmWdt_second_byte (s : State) : (disarmWdt s).regs.second_byte = s.regs.second_byte := rfl
@[simp] theorem disarmWdt_rb_mem (s : State) : (disarmWdt s).regs.rb_mem = s.regs.rb_mem := rfl
@[simp] theorem disarmWdt_rb_head (s : State) : (disarmWdt s).regs.rb_head = s.regs.rb_head := rfl
@[simp] theorem disarmWdt_rb_tail (s : State) : (disarmWdt s).regs.rb_tail = s.regs.rb_tail := rfl
@[simp] theorem disarmWdt_rb_free (s : State) : (disarmWdt s).regs.rb_free = s.regs.rb_free := rfl
@[simp] theorem disarmWdt_desc_type (s : State) : (disarmWdt s).regs.desc_type = s.regs.desc_type := rfl
@[simp] theorem disarmWdt_desc_cb (s : State) : (disarmWdt s).regs.desc_cb = s.regs.desc_cb := rfl
@[simp] theorem disarmWdt_in_val (s : State) : (disarmWdt s).regs.in_val = s.regs.in_val := rfl
@[simp] theorem disarmWdt_out_val (s : State) : (disarmWdt s).regs.out_val = s.regs.out_val := rfl
@[simp] theorem disarmWdt_event_word (s : State) : (disarmWdt s).regs.event_word = s.regs.event_word := rfl
@[simp] theorem disarmWdt_thr_full (s : State) : (disarmWdt s).regs.thr_full = s.regs.thr_full := rfl
@[simp] theorem disarmWdt_thr_byte (s : State) : (disarmWdt s).regs.thr_byte = s.regs.thr_byte := rfl

@[simp] theorem setRx_params (x : BitVec 2) (s : State) : (setRx x s).params = s.params := rfl
@[simp] theorem setRx_inputs (x : BitVec 2) (s : State) : (setRx x s).inputs = s.inputs := rfl
@[simp] theorem setRx_rsp_reg (x : BitVec 2) (s : State) : (setRx x s).rsp_reg = s.rsp_reg := rfl
@[simp] theorem setRx_cb_reg (x : BitVec 2) (s : State) : (setRx x s).cb_reg = s.cb_reg := rfl
@[simp] theorem setRx_ports (x : BitVec 2) (s : State) : (setRx x s).ports = s.ports := rfl
@[simp] theorem setRx_rx_state (x : BitVec 2) (s : State) : (setRx x s).regs.rx_state = x := rfl
@[simp] theorem setRx_pending_unit (x : BitVec 2) (s : State) : (setRx x s).regs.pending_unit = s.regs.pending_unit := rfl
@[simp] theorem setRx_wdt_armed (x : BitVec 2) (s : State) : (setRx x s).regs.wdt_armed = s.regs.wdt_armed := rfl
@[simp] theorem setRx_wdt_count (x : BitVec 2) (s : State) : (setRx x s).regs.wdt_count = s.regs.wdt_count := rfl
@[simp] theorem setRx_tx_int_en (x : BitVec 2) (s : State) : (setRx x s).regs.tx_int_en = s.regs.tx_int_en := rfl
@[simp] theorem setRx_mid_pair (x : BitVec 2) (s : State) : (setRx x s).regs.mid_pair = s.regs.mid_pair := rfl
@[simp] theorem setRx_second_byte (x : BitVec 2) (s : State) : (setRx x s).regs.second_byte = s.regs.second_byte := rfl
@[simp] theorem setRx_rb_mem (x : BitVec 2) (s : State) : (setRx x s).regs.rb_mem = s.regs.rb_mem := rfl
@[simp] theorem setRx_rb_head (x : BitVec 2) (s : State) : (setRx x s).regs.rb_head = s.regs.rb_head := rfl
@[simp] theorem setRx_rb_tail (x : BitVec 2) (s : State) : (setRx x s).regs.rb_tail = s.regs.rb_tail := rfl
@[simp] theorem setRx_rb_free (x : BitVec 2) (s : State) : (setRx x s).regs.rb_free = s.regs.rb_free := rfl
@[simp] theorem setRx_desc_type (x : BitVec 2) (s : State) : (setRx x s).regs.desc_type = s.regs.desc_type := rfl
@[simp] theorem setRx_desc_cb (x : BitVec 2) (s : State) : (setRx x s).regs.desc_cb = s.regs.desc_cb := rfl
@[simp] theorem setRx_in_val (x : BitVec 2) (s : State) : (setRx x s).regs.in_val = s.regs.in_val := rfl
@[simp] theorem setRx_out_val (x : BitVec 2) (s : State) : (setRx x s).regs.out_val = s.regs.out_val := rfl
@[simp] theorem setRx_event_word (x : BitVec 2) (s : State) : (setRx x s).regs.event_word = s.regs.event_word := rfl
@[simp] theorem setRx_thr_full (x : BitVec 2) (s : State) : (setRx x s).regs.thr_full = s.regs.thr_full := rfl
@[simp] theorem setRx_thr_byte (x : BitVec 2) (s : State) : (setRx x s).regs.thr_byte = s.regs.thr_byte := rfl

@[simp] theorem drain_params (s : State) : (drain s).params = s.params := rfl
@[simp] theorem drain_inputs (s : State) : (drain s).inputs = s.inputs := rfl
@[simp] theorem drain_rsp_reg (s : State) : (drain s).rsp_reg = s.rsp_reg := rfl
@[simp] theorem drain_cb_reg (s : State) : (drain s).cb_reg = s.cb_reg := rfl
@[simp] theorem drain_ports (s : State) : (drain s).ports = { s.ports with wire := some s.regs.thr_byte } := rfl
@[simp] theorem drain_rx_state (s : State) : (drain s).regs.rx_state = s.regs.rx_state := rfl
@[simp] theorem drain_pending_unit (s : State) : (drain s).regs.pending_unit = s.regs.pending_unit := rfl
@[simp] theorem drain_wdt_armed (s : State) : (drain s).regs.wdt_armed = s.regs.wdt_armed := rfl
@[simp] theorem drain_wdt_count (s : State) : (drain s).regs.wdt_count = s.regs.wdt_count := rfl
@[simp] theorem drain_tx_int_en (s : State) : (drain s).regs.tx_int_en = s.regs.tx_int_en := rfl
@[simp] theorem drain_mid_pair (s : State) : (drain s).regs.mid_pair = s.regs.mid_pair := rfl
@[simp] theorem drain_second_byte (s : State) : (drain s).regs.second_byte = s.regs.second_byte := rfl
@[simp] theorem drain_rb_mem (s : State) : (drain s).regs.rb_mem = s.regs.rb_mem := rfl
@[simp] theorem drain_rb_head (s : State) : (drain s).regs.rb_head = s.regs.rb_head := rfl
@[simp] theorem drain_rb_tail (s : State) : (drain s).regs.rb_tail = s.regs.rb_tail := rfl
@[simp] theorem drain_rb_free (s : State) : (drain s).regs.rb_free = s.regs.rb_free := rfl
@[simp] theorem drain_desc_type (s : State) : (drain s).regs.desc_type = s.regs.desc_type := rfl
@[simp] theorem drain_desc_cb (s : State) : (drain s).regs.desc_cb = s.regs.desc_cb := rfl
@[simp] theorem drain_in_val (s : State) : (drain s).regs.in_val = s.regs.in_val := rfl
@[simp] theorem drain_out_val (s : State) : (drain s).regs.out_val = s.regs.out_val := rfl
@[simp] theorem drain_event_word (s : State) : (drain s).regs.event_word = s.regs.event_word := rfl
@[simp] theorem drain_thr_full (s : State) : (drain s).regs.thr_full = false := rfl
@[simp] theorem drain_thr_byte (s : State) : (drain s).regs.thr_byte = s.regs.thr_byte := rfl

/-! ## Cycle boundaries -/

@[simp] theorem beginCycle_params (s : State) : (beginCycle s).params = s.params := rfl
@[simp] theorem beginCycle_inputs (s : State) : (beginCycle s).inputs = s.inputs.tail := rfl
@[simp] theorem beginCycle_rsp_reg (s : State) : (beginCycle s).rsp_reg = none := rfl
@[simp] theorem beginCycle_cb_reg (s : State) : (beginCycle s).cb_reg = none := rfl
@[simp] theorem beginCycle_ports (s : State) : (beginCycle s).ports = ⟨s.rsp_reg, s.cb_reg, none, none, []⟩ := rfl
@[simp] theorem beginCycle_regs (s : State) : (beginCycle s).regs = s.regs := rfl

@[simp] theorem resetCycle_params (s : State) : (resetCycle s).params = s.params := rfl
@[simp] theorem resetCycle_inputs (s : State) : (resetCycle s).inputs = s.inputs.tail := rfl
@[simp] theorem resetCycle_rsp_reg (s : State) : (resetCycle s).rsp_reg = none := rfl
@[simp] theorem resetCycle_cb_reg (s : State) : (resetCycle s).cb_reg = none := rfl
@[simp] theorem resetCycle_ports (s : State) : (resetCycle s).ports = Ports.quiet := rfl
@[simp] theorem resetCycle_regs (s : State) : (resetCycle s).regs = Regs.reset s.params := rfl

@[simp] theorem presentCommand_params (w : CmdWord) (s : State) : (presentCommand w s).params = s.params := rfl
@[simp] theorem presentCommand_inputs (w : CmdWord) (s : State) : (presentCommand w s).inputs = commandInput w :: s.inputs := rfl
@[simp] theorem presentCommand_rsp_reg (w : CmdWord) (s : State) : (presentCommand w s).rsp_reg = s.rsp_reg := rfl
@[simp] theorem presentCommand_cb_reg (w : CmdWord) (s : State) : (presentCommand w s).cb_reg = s.cb_reg := rfl
@[simp] theorem presentCommand_ports (w : CmdWord) (s : State) : (presentCommand w s).ports = s.ports := rfl
@[simp] theorem presentCommand_regs (w : CmdWord) (s : State) : (presentCommand w s).regs = s.regs := rfl

end Sys2Proof.Machine
end

