-- ==== Sys2Proof/Laws/Ops.lean ====
section
/-! SUPPORT. One lemma per shared operation that says everything it can do when it answers next; callers cite it and do not unfold the operation. -/

namespace Sys2Proof.Machine

/-! ## Sequencing -/

@[simp] theorem andThen_next {α β : Type} (a : α) (k : α → Result β) : andThen (.next a) k = k a := rfl
@[simp] theorem andThen_fault {α β : Type} (f : Fault) (k : α → Result β) : andThen (.fault f : Result α) k = .fault f := rfl
@[simp] theorem andThen_refused {α β : Type} (q : Refusal) (k : α → Result β) : andThen (.refused q : Result α) k = .refused q := rfl

theorem andThen_eq_next {α β : Type} {r : Result α} {k : α → Result β} {b : β} :
    andThen r k = .next b ↔ ∃ a, r = .next a ∧ k a = .next b := by
  cases r <;> simp [andThen]

theorem andThen_assoc {α β γ : Type} (r : Result α) (k : α → Result β) (l : β → Result γ) :
    andThen (andThen r k) l = andThen r fun a => andThen (k a) l := by
  cases r <;> rfl

theorem andThen_pure {α : Type} (r : Result α) : andThen r .next = r := by
  cases r <;> rfl

/-! ## Array primitives -/

theorem memRead_eq_next {α : Type} {a : List α} {i : Nat} {v : α} : memRead a i = .next v ↔ a[i]? = some v := by
  unfold memRead
  cases a[i]? <;> simp

theorem memWrite_eq_next {α : Type} {a b : List α} {i : Nat} {v : α} :
    memWrite a i v = .next b ↔ i < a.length ∧ b = a.set i v := by
  unfold memWrite
  split <;> simp [*, eq_comm]

theorem eventRead_eq_next {w : BitVec 64} {i : Nat} {b : Bool} : eventRead w i = .next b ↔ i < 64 ∧ b = eventBit w i := by
  unfold eventRead
  split <;> simp [*, eq_comm]

theorem eventWrite_eq_next {w v : BitVec 64} {i : Nat} {b : Bool} :
    eventWrite w i b = .next v ↔ i < 64 ∧ v = withEventBit w i b := by
  unfold eventWrite
  split <;> simp [*, eq_comm]

/-- Writing bit i gives it the value and keeps every other bit. -/
theorem getLsbD_withEventBit (w : BitVec 64) {i : Nat} (hi : i < 64) (b : Bool) (j : Nat) :
    (withEventBit w i b).getLsbD j = if j = i then b else w.getLsbD j := by
  have far : ∀ k, 64 ≤ k → w.getLsbD k = false := fun k hk => BitVec.getLsbD_of_ge w k hk
  cases b <;> by_cases h : j = i <;> simp [withEventBit, h, hi, BitVec.getLsbD_twoPow]
  · by_cases hj : j < 64
    · simp [hj, Ne.symm h]
    · simp [hj, far j (Nat.not_lt.mp hj)]
  · simp [Ne.symm h]

/-! ## Operand forms and flags -/

theorem typeAbsent_iff {p : Params} {t : BitVec 4} :
    typeAbsent p t = true ↔ (t = UnitType.ack.code ∧ p.hasAckUnit = false) ∨ (t = UnitType.error.code ∧ p.hasErrorUnit = false) := by
  simp [typeAbsent]

theorem typeReserved_iff {t : BitVec 4} : typeReserved t = true ↔ 10 ≤ t.toNat := by simp [typeReserved]

theorem bitWord_eq (b : Bool) : bitWord b = if b = true then 0x0001 else 0x0000 := by cases b <;> rfl

/-- R127's layout, high bits first. -/
theorem descWord_eq (cb : Bool) (t : BitVec 4) : descWord cb t = 0#11 ++ BitVec.ofBool cb ++ t := by revert cb t; decide

/-- A byte zero-extended to a response datum. -/
theorem setWidth_byte (v : Byte) : v.setWidth 16 = 0#8 ++ v := by revert v; decide

/-! ## Index test and responses -/

theorem withIndex_out {idx : Byte} {s : State} (h : s.params.numUnits ≤ idx.toNat) (k : Nat → Result State) :
    withIndex idx s k = raiseIllegal .indexRange s := by
  simp [withIndex, h]

theorem withIndex_in {idx : Byte} {s : State} (h : idx.toNat < s.params.numUnits) (k : Nat → Result State) :
    withIndex idx s k = k idx.toNat := by
  simp [withIndex, Nat.not_le.mpr h]

theorem withIndex_eq_next {idx : Byte} {s t : State} {k : Nat → Result State} :
    withIndex idx s k = .next t ↔
      (s.params.numUnits ≤ idx.toNat ∧ t = respond .illegal (Cause.data .indexRange) s) ∨
        (idx.toNat < s.params.numUnits ∧ k idx.toNat = .next t) := by
  by_cases h : s.params.numUnits ≤ idx.toNat
  · simp [withIndex, h, raiseIllegal, eq_comm, Nat.not_lt.mpr h]
  · simp [withIndex, h, Nat.not_le.mp h]

/-! ## Ring buffer, holding register, output value -/

theorem enqueue_eq_next {e : Word16} {s t : State} :
    enqueue e s = .next t ↔
      0 < s.params.rbCapacity ∧ 0 < s.regs.rb_free.toNat ∧ s.regs.rb_tail.toNat < s.regs.rb_mem.length ∧
        t = { s with regs := { s.regs with
          rb_mem := s.regs.rb_mem.set s.regs.rb_tail.toNat e
          rb_tail := ringNext s.params.rbCapacity s.regs.rb_tail
          rb_free := s.regs.rb_free - 1 } } := by
  unfold enqueue
  split
  · rename_i h
    simp only [andThen_eq_next, memWrite_eq_next, h, true_and]
    constructor
    · rintro ⟨m, ⟨hl, rfl⟩, h⟩; exact ⟨hl, (Host.Outcome.next.inj h).symm⟩
    · rintro ⟨hl, rfl⟩; exact ⟨_, ⟨hl, rfl⟩, rfl⟩
  · rename_i h
    constructor
    · intro h'; cases h'
    · rintro ⟨h1, h2, -⟩; exact absurd ⟨h1, h2⟩ h

theorem dequeue_eq_next {s t : State} {e : Word16} :
    dequeue s = .next (e, t) ↔
      0 < s.params.rbCapacity ∧ s.regs.rb_free.toNat < s.params.rbCapacity ∧ s.regs.rb_mem[s.regs.rb_head.toNat]? = some e ∧
        t = { s with regs := { s.regs with
          rb_head := ringNext s.params.rbCapacity s.regs.rb_head
          rb_free := s.regs.rb_free + 1 } } := by
  unfold dequeue
  split
  · rename_i h
    simp only [andThen_eq_next, memRead_eq_next, h, true_and]
    constructor
    · rintro ⟨m, hl, h⟩
      cases h
      exact ⟨hl, rfl⟩
    · rintro ⟨hl, rfl⟩; exact ⟨_, hl, rfl⟩
  · rename_i h
    constructor
    · intro h'; cases h'
    · rintro ⟨h1, h2, -⟩; exact absurd ⟨h1, h2⟩ h

theorem thrWrite_eq_next {b : Byte} {s t : State} :
    thrWrite b s = .next t ↔
      s.regs.thr_full = false ∧
        t = { s with regs := { s.regs with thr_byte := b, thr_full := true }, ports := { s.ports with tx := some b } } := by
  unfold thrWrite
  split <;> simp [*, eq_comm]

theorem thrWrite_empty {b : Byte} {s : State} (h : s.regs.thr_full = false) :
    thrWrite b s =
      .next { s with regs := { s.regs with thr_byte := b, thr_full := true }, ports := { s.ports with tx := some b } } :=
  thrWrite_eq_next.mpr ⟨h, rfl⟩

theorem recordOutput_eq_next {u d : Byte} {s t : State} :
    recordOutput u d s = .next t ↔
      (unitIndex u < s.params.numUnits → unitIndex u < s.regs.out_val.length) ∧
        t = { s with regs := { s.regs with
          out_val := if unitIndex u < s.params.numUnits then s.regs.out_val.set (unitIndex u) d else s.regs.out_val } } := by
  unfold recordOutput
  split
  · rename_i h
    simp only [andThen_eq_next, memWrite_eq_next, h, forall_const]
    constructor
    · rintro ⟨a, ⟨hl, rfl⟩, h⟩; exact ⟨hl, (Host.Outcome.next.inj h).symm⟩
    · rintro ⟨hl, rfl⟩; exact ⟨_, ⟨hl, rfl⟩, rfl⟩
  · rename_i h
    simp only [h, false_implies, true_and]
    constructor
    · intro h; cases h; rfl
    · rintro rfl; rfl

end Sys2Proof.Machine
end

