-- ==== Sys2Proof/Laws/Guard.lean ====
section
/-! SUPPORT. The guard of a cycle is the invariant, and what a step can do is one of three things. -/

namespace Sys2Proof.Machine

theorem paramsLegal_iff {p : Params} : paramsLegal p = true ↔ LegalParams p := by
  simp only [paramsLegal, Bool.and_eq_true, decide_eq_true_eq]
  constructor
  · rintro ⟨⟨⟨⟨⟨h1, h2⟩, h3⟩, h4⟩, h5⟩, h6⟩; exact ⟨h1, h2, h3, h4, h5, h6⟩
  · rintro ⟨h1, h2, h3, h4, h5, h6⟩; exact ⟨⟨⟨⟨⟨h1, h2⟩, h3⟩, h4⟩, h5⟩, h6⟩

theorem arraysSized_iff {s : State} : arraysSized s = true ↔ Sized s := by
  simp only [arraysSized, Bool.and_eq_true, decide_eq_true_eq]
  constructor
  · rintro ⟨⟨⟨⟨h1, h2⟩, h3⟩, h4⟩, h5⟩; exact ⟨h1, h2, h3, h4, h5⟩
  · rintro ⟨h1, h2, h3, h4, h5⟩; exact ⟨⟨⟨⟨h1, h2⟩, h3⟩, h4⟩, h5⟩

theorem slotsConserved_iff {s : State} : slotsConserved s = true ↔ s.regs.rb_free.toNat ≤ s.params.rbCapacity := by
  simp only [slotsConserved, Bool.and_eq_true, decide_eq_true_eq]
  exact ⟨fun h => h.1, fun h => ⟨h, Nat.add_sub_cancel' h⟩⟩

theorem ringAligned_iff {s : State} :
    ringAligned s = true ↔
      (0 < s.params.rbCapacity → s.regs.rb_head.toNat < s.params.rbCapacity) ∧
      (0 < s.params.rbCapacity → s.regs.rb_tail.toNat = (s.regs.rb_head.toNat + rbCount s) % s.params.rbCapacity) := by
  simp only [ringAligned, decide_eq_true_eq]
  constructor
  · intro h; exact ⟨fun hc => (h hc).1, fun hc => (h hc).2.2⟩
  · rintro ⟨h1, h2⟩ hc
    exact ⟨h1 hc, h2 hc ▸ Nat.mod_lt _ hc, h2 hc⟩

theorem receiveControlled_iff {s : State} :
    receiveControlled s = true ↔
      s.regs.rx_state ≠ 0b11#2 ∧
      (s.regs.wdt_armed = true ↔ (s.regs.rx_state = rxAwaitData ∨ s.regs.rx_state = rxResyncDiscard)) := by
  simp only [receiveControlled, Bool.and_eq_true, decide_eq_true_eq]
  refine and_congr_right fun _ => ?_
  rw [Bool.eq_iff_iff, Bool.or_eq_true, decide_eq_true_eq, decide_eq_true_eq]

theorem watchdogBounded_iff {s : State} :
    watchdogBounded s = true ↔
      (s.regs.wdt_armed = false → s.regs.wdt_count = 0) ∧
      (s.regs.wdt_armed = true → s.regs.wdt_count.toNat < s.params.wdtTicks) := by
  unfold watchdogBounded
  cases s.regs.wdt_armed <;> simp

theorem transmitControlled_iff {s : State} :
    transmitControlled s = true ↔ (s.regs.tx_int_en = true ↔ (s.regs.mid_pair = true ∨ 0 < rbCount s)) := by
  simp only [transmitControlled, decide_eq_true_eq]
  rw [Bool.eq_iff_iff, Bool.or_eq_true, decide_eq_true_eq]

theorem eventsInRange_iff {s : State} :
    eventsInRange s = true ↔ ∀ i, s.params.numUnits ≤ i → s.regs.event_word.getLsbD i = false := by
  simp only [eventsInRange, decide_eq_true_eq]
  constructor
  · intro h i hi
    have := congrArg (fun w => w.getLsbD (i - s.params.numUnits)) h
    simpa [BitVec.getLsbD_ushiftRight, Nat.add_sub_cancel' hi] using this
  · intro h
    apply BitVec.eq_of_getLsbD_eq
    intro i hi
    simp [BitVec.getLsbD_ushiftRight, h]

/-- The guard passes exactly the states of a legal instance that meet the invariants. -/
theorem inv_iff {s : State} : Inv s ↔ LegalParams s.params ∧ brokenInvariant s = none := by
  have key : brokenInvariant s = none ↔
      arraysSized s = true ∧ slotsConserved s = true ∧ ringAligned s = true ∧ receiveControlled s = true ∧
      watchdogBounded s = true ∧ transmitControlled s = true ∧ eventsInRange s = true := by
    unfold brokenInvariant
    cases arraysSized s <;> cases slotsConserved s <;> cases ringAligned s <;> cases receiveControlled s <;>
      cases watchdogBounded s <;> cases transmitControlled s <;> cases eventsInRange s <;> simp
  rw [key, arraysSized_iff, slotsConserved_iff, ringAligned_iff, receiveControlled_iff, watchdogBounded_iff,
    transmitControlled_iff, eventsInRange_iff]
  constructor
  · rintro ⟨a, b, c, d, e, f, g, h, i, j, k⟩; exact ⟨a, b, c, ⟨d, e⟩, ⟨f, g⟩, ⟨h, i⟩, j, k⟩
  · rintro ⟨a, b, c, ⟨d, e⟩, ⟨f, g⟩, ⟨h, i⟩, j, k⟩; exact ⟨a, b, c, d, e, f, g, h, i, j, k⟩

theorem step_reset {s : State} (hp : LegalParams s.params) (hr : (nextInput s).rst = true) : step s = .next (resetCycle s) := by
  simp [step, cycle, paramsLegal_iff.mpr hp, hr]

theorem step_run {s : State} (hi : Inv s) (hr : (nextInput s).rst = false) :
    step s = runCycle (nextInput s) (beginCycle s) := by
  obtain ⟨hp, hg⟩ := inv_iff.mp hi
  simp [step, cycle, paramsLegal_iff.mpr hp, hr, hg]

/-- What a step that answers a next state did: a reset cycle, or, from a state that meets the invariants, a cycle's phases in R300's order. -/
theorem step_eq_next {s t : State} :
    step s = .next t ↔
      LegalParams s.params ∧
        (((nextInput s).rst = true ∧ t = resetCycle s) ∨
          ((nextInput s).rst = false ∧ Inv s ∧
            ∃ s1 s2 s3, txePhase (drainPhase (nextInput s) (beginCycle s)) = .next s1 ∧ hostPhase (nextInput s) s1 = .next s2 ∧
              rxPhase (nextInput s) s2 = .next s3 ∧ tickPhase (nextInput s) s3 = .next t)) := by
  constructor
  · intro h
    unfold step cycle at h
    split at h
    · rename_i hp
      refine ⟨paramsLegal_iff.mp hp, ?_⟩
      split at h
      · rename_i hr
        exact .inl ⟨hr, (Host.Outcome.next.inj h).symm⟩
      · rename_i hr
        split at h
        · cases h
        · rename_i hg
          refine .inr ⟨by simpa using hr, inv_iff.mpr ⟨paramsLegal_iff.mp hp, hg⟩, ?_⟩
          simp only [runCycle, transmitPhase, receivePhase, andThen_eq_next] at h
          obtain ⟨s1, h1, s2, h2, s3, h3, h4⟩ := h
          exact ⟨s1, s2, s3, h1, h2, h3, h4⟩
    · cases h
  · rintro ⟨hp, ⟨hr, rfl⟩ | ⟨hr, hi, s1, s2, s3, h1, h2, h3, h4⟩⟩
    · exact step_reset hp hr
    · rw [step_run hi hr]
      simp only [runCycle, transmitPhase, receivePhase, andThen_eq_next]
      exact ⟨s1, h1, s2, h2, s3, h3, h4⟩

/-- TXE is enabled after the cycle's DRAIN exactly where `txeFires` says so (60_exceptions.md R296). -/
theorem txeEnabled_drainPhase_iff {s : State} : txeEnabled (drainPhase (nextInput s) (beginCycle s)) = true ↔ txeFires s := by
  unfold drainPhase txeFires txeEnabled txReady
  split <;> rename_i h
  · simp_all [drain, beginCycle]
  · cases hf : s.regs.thr_full <;> simp_all [beginCycle]

end Sys2Proof.Machine
end

