-- ==== Sys2Proof/Laws/Events.lean ====
section
/-! SUPPORT. One inversion lemma per event of a cycle (TXE, RXC, TICK) and per command: if it answers next, then one of these cases holds. -/

namespace Sys2Proof.Machine

/-! ## TXE (40_transmit.md R167 to R170) -/

/-- TXE sent the stored second byte (R167, R170), sent the first byte of the oldest entry (R168), or went idle (R169). -/
theorem txe_cases {s t : State} (h : txe s = .next t) :
    (s.regs.mid_pair = true ∧ s.regs.thr_full = false ∧
      t = { s with
        regs := { s.regs with
          thr_byte := s.regs.second_byte, thr_full := true, mid_pair := false
          tx_int_en := if s.params.rbCapacity = 0 ∨ rbCount s = 0 then false else s.regs.tx_int_en }
        ports := { s.ports with tx := some s.regs.second_byte } }) ∨
    (0 < s.params.rbCapacity ∧ s.regs.mid_pair = false ∧ 0 < rbCount s ∧ s.regs.thr_full = false ∧
      ∃ e, s.regs.rb_mem[s.regs.rb_head.toNat]? = some e ∧
        t = { s with
          regs := { s.regs with
            rb_head := ringNext s.params.rbCapacity s.regs.rb_head, rb_free := s.regs.rb_free + 1
            thr_byte := entryUnit e, thr_full := true, second_byte := entryData e, mid_pair := true }
          ports := { s.ports with tx := some (entryUnit e) } }) ∨
    (0 < s.params.rbCapacity ∧ s.regs.mid_pair = false ∧ rbCount s = 0 ∧
      t = { s with regs := { s.regs with tx_int_en := false } }) := by
  unfold txe at h
  split at h
  · rename_i hc
    unfold txeQueueless at h
    split at h
    · rename_i hm
      simp only [andThen_eq_next, thrWrite_eq_next] at h
      obtain ⟨s1, ⟨hf, rfl⟩, h⟩ := h
      cases h
      exact .inl ⟨hm, hf, by simp [hc]⟩
    · cases h
  · rename_i hc
    have hc' : 0 < s.params.rbCapacity := Nat.pos_of_ne_zero hc
    split at h
    · rename_i hm
      simp only [txeSecondByte, andThen_eq_next, thrWrite_eq_next] at h
      obtain ⟨s1, ⟨hf, rfl⟩, h⟩ := h
      cases h
      exact .inl ⟨hm, hf, by simp [hc]⟩
    · rename_i hm
      have hm' : s.regs.mid_pair = false := by simpa using hm
      split at h
      · rename_i hn
        simp only [txeFirstByte, andThen_eq_next] at h
        obtain ⟨⟨e, s1⟩, hd, s2, hw, h⟩ := h
        obtain ⟨-, -, he, rfl⟩ := dequeue_eq_next.mp hd
        obtain ⟨hf, rfl⟩ := thrWrite_eq_next.mp hw
        cases h
        exact .inr (.inl ⟨hc', hm', hn, hf, e, he, rfl⟩)
      · rename_i hn
        cases h
        exact .inr (.inr ⟨hc', hm', by omega, rfl⟩)

/-! ## RXC, Dispatch and TICK (41_receive.md) -/

/-- The index names no registered unit of the instance (R211). -/
def Unregistered (s : State) (i : Nat) : Prop := s.params.numUnits ≤ i ∨ s.regs.desc_type[i]? = some UnitType.undefined.code

/-- The index names a unit of the instance whose type is not Undefined. -/
def Registered (s : State) (i : Nat) : Prop :=
  i < s.params.numUnits ∧ ∃ ty, s.regs.desc_type[i]? = some ty ∧ ty ≠ UnitType.undefined.code

theorem not_registered_of_unregistered {s : State} {i : Nat} (h : Unregistered s i) : ¬ Registered s i := by
  rintro ⟨hlt, ty, ht, hne⟩
  obtain h | h := h
  · omega
  · rw [h] at ht
    exact hne (Option.some.inj ht).symm

/-- Dispatch dropped the pair (R211), or stored it, set its event bit, and notified if the callback flag is 1 (R210). -/
theorem dispatch_eq_next {u d : Byte} {s t : State} :
    dispatch u d s = .next t ↔
      (Unregistered s (unitIndex u) ∧ t = noteDrop .unregistered s) ∨
      (Registered s (unitIndex u) ∧ unitIndex u < s.regs.in_val.length ∧ unitIndex u < 64 ∧
        ∃ cb, s.regs.desc_cb[unitIndex u]? = some cb ∧
          t = { s with
            regs := { s.regs with
              in_val := s.regs.in_val.set (unitIndex u) d
              event_word := withEventBit s.regs.event_word (unitIndex u) true }
            cb_reg := if cb then some ⟨u, d⟩ else s.cb_reg }) := by
  have stored : ∀ t, dispatchStored u d s = .next t ↔
      (unitIndex u < s.regs.in_val.length ∧ unitIndex u < 64 ∧
        ∃ cb, s.regs.desc_cb[unitIndex u]? = some cb ∧
          t = { s with
            regs := { s.regs with
              in_val := s.regs.in_val.set (unitIndex u) d
              event_word := withEventBit s.regs.event_word (unitIndex u) true }
            cb_reg := if cb then some ⟨u, d⟩ else s.cb_reg }) := by
    intro t
    simp only [dispatchStored, andThen_eq_next, memWrite_eq_next, eventWrite_eq_next, memRead_eq_next]
    constructor
    · rintro ⟨a, ⟨h1, rfl⟩, w, ⟨h2, rfl⟩, cb, h3, h⟩
      refine ⟨h1, h2, cb, h3, ?_⟩
      cases cb <;> exact (Host.Outcome.next.inj h).symm
    · rintro ⟨h1, h2, cb, h3, rfl⟩
      refine ⟨_, ⟨h1, rfl⟩, _, ⟨h2, rfl⟩, cb, h3, ?_⟩
      cases cb <;> rfl
  unfold dispatch
  split
  · rename_i hu
    have hun : Unregistered s (unitIndex u) := .inl hu
    simp only [dispatchDropped, hun, not_registered_of_unregistered hun, true_and, false_and, or_false]
    exact ⟨fun h => (Host.Outcome.next.inj h).symm, fun h => h ▸ rfl⟩
  · rename_i hu
    simp only [andThen_eq_next, memRead_eq_next]
    constructor
    · rintro ⟨ty, ht, h⟩
      split at h
      · rename_i h0
        exact .inl ⟨.inr (h0 ▸ ht), (Host.Outcome.next.inj h).symm⟩
      · rename_i h0
        exact .inr ⟨⟨by omega, ty, ht, h0⟩, (stored t).mp h⟩
    · rintro (⟨h | h, rfl⟩ | ⟨⟨-, ty, ht, hne⟩, h⟩)
      · exact absurd h hu
      · exact ⟨_, h, by simp [dispatchDropped]⟩
      · exact ⟨ty, ht, by rw [if_neg hne]; exact (stored t).mpr h⟩

/-- RXC took one of the transitions R201 to R205. -/
theorem rxc_cases {b : Byte} {err : Bool} {s t : State} (h : rxc b err s = .next t) :
    (s.regs.rx_state = rxAwaitUnit ∧ err = false ∧
      t = armWdt (setRx rxAwaitData { s with regs := { s.regs with pending_unit := b } })) ∨
    (s.regs.rx_state = rxAwaitUnit ∧ err = true ∧ t = noteDrop .unitFraming (armWdt (setRx rxResyncDiscard s))) ∨
    (s.regs.rx_state = rxAwaitData ∧ err = true ∧ t = noteDrop .dataFraming (disarmWdt (setRx rxAwaitUnit s))) ∨
    (s.regs.rx_state = rxResyncDiscard ∧ t = noteDrop .resync (disarmWdt (setRx rxAwaitUnit s))) ∨
    (s.regs.rx_state = rxAwaitData ∧ err = false ∧ dispatch s.regs.pending_unit b (disarmWdt (setRx rxAwaitUnit s)) = .next t) := by
  unfold rxc at h
  split at h
  · rename_i h0
    unfold rxcAwaitUnit at h
    cases err <;> cases h
    · exact .inl ⟨h0, rfl, rfl⟩
    · exact .inr (.inl ⟨h0, rfl, rfl⟩)
  · split at h
    · rename_i h1
      unfold rxcAwaitData at h
      cases err
      · exact .inr (.inr (.inr (.inr ⟨h1, rfl, h⟩)))
      · cases h; exact .inr (.inr (.inl ⟨h1, rfl, rfl⟩))
    · split at h
      · rename_i h2
        cases h
        exact .inr (.inr (.inr (.inl ⟨h2, rfl⟩)))
      · cases h

/-- TICK did nothing (R225), counted (R223), or expired (R224). -/
theorem tick_cases {s t : State} (h : tick s = .next t) :
    (s.regs.wdt_armed = false ∧ t = s) ∨
    (s.regs.wdt_armed = true ∧ s.regs.wdt_count.toNat + 1 < s.params.wdtTicks ∧
      t = { s with regs := { s.regs with wdt_count := s.regs.wdt_count + 1 } }) ∨
    (s.regs.wdt_armed = true ∧ s.regs.wdt_count.toNat + 1 = s.params.wdtTicks ∧ t = expire s) := by
  unfold tick at h
  split at h
  · rename_i ha
    split at h
    · rename_i hl
      cases h; exact .inr (.inl ⟨ha, hl, rfl⟩)
    · split at h
      · rename_i he
        cases h; exact .inr (.inr ⟨ha, he, rfl⟩)
      · cases h
  · rename_i ha
    cases h; exact .inl ⟨by simpa using ha, rfl⟩

/-! ## SUBMIT (40_transmit.md R162 to R166) -/

/-- SUBMIT failed, was accepted queueless (R163), or was accepted into the queue (R166). -/
theorem execSubmit_cases {u d : Byte} {s t : State} (h : execSubmit u d s = .next t) :
    ((s.params.rbCapacity = 0 ∧ (s.regs.thr_full = true ∨ s.regs.tx_int_en = true) ∧ t = respond .fail (Cause.data .txBusy) s) ∨
      (0 < s.params.rbCapacity ∧ s.regs.rb_free = 0 ∧ t = respond .fail (Cause.data .queueFull) s)) ∨
    (s.params.rbCapacity = 0 ∧ s.regs.thr_full = false ∧ s.regs.tx_int_en = false ∧
      (unitIndex u < s.params.numUnits → unitIndex u < s.regs.out_val.length) ∧
      t = { s with
        regs := { s.regs with
          thr_byte := u, thr_full := true, second_byte := d, mid_pair := true, tx_int_en := true
          out_val := if unitIndex u < s.params.numUnits then s.regs.out_val.set (unitIndex u) d else s.regs.out_val }
        rsp_reg := some ⟨.ok, 0x0000⟩
        ports := { s.ports with tx := some u } }) ∨
    (0 < s.params.rbCapacity ∧ 0 < s.regs.rb_free.toNat ∧ s.regs.rb_tail.toNat < s.regs.rb_mem.length ∧
      (unitIndex u < s.params.numUnits → unitIndex u < s.regs.out_val.length) ∧
      t = { s with
        regs := { s.regs with
          rb_mem := s.regs.rb_mem.set s.regs.rb_tail.toNat (entryOf u d)
          rb_tail := ringNext s.params.rbCapacity s.regs.rb_tail
          rb_free := s.regs.rb_free - 1
          tx_int_en := true
          out_val := if unitIndex u < s.params.numUnits then s.regs.out_val.set (unitIndex u) d else s.regs.out_val }
        rsp_reg := some ⟨.ok, 0x0000⟩ }) := by
  unfold execSubmit at h
  split at h
  · rename_i hc
    unfold submitQueueless at h
    split at h
    · rename_i hb
      cases h
      exact .inl (.inl ⟨hc, by simpa [queuelessBusy] using hb, rfl⟩)
    · rename_i hb
      simp only [andThen_eq_next, thrWrite_eq_next, recordOutput_eq_next] at h
      obtain ⟨s1, ⟨hf, rfl⟩, s2, ⟨hl, rfl⟩, h⟩ := h
      cases h
      have hb' : s.regs.tx_int_en = false := by
        simp only [queuelessBusy, hf, Bool.false_or] at hb; simpa using hb
      exact .inr (.inl ⟨hc, hf, hb', hl, rfl⟩)
  · rename_i hc
    unfold submitBuffered at h
    split at h
    · rename_i hb
      cases h
      exact .inl (.inr ⟨Nat.pos_of_ne_zero hc, by simpa [queueFull] using hb, rfl⟩)
    · simp only [andThen_eq_next, enqueue_eq_next, recordOutput_eq_next] at h
      obtain ⟨s1, ⟨h1, h2, h3, rfl⟩, s2, ⟨hl, rfl⟩, h⟩ := h
      cases h
      exact .inr (.inr ⟨h1, h2, h3, hl, rfl⟩)

/-! ## Registry and event commands (42_registry.md) -/

theorem execRegister_cases {idx : Byte} {ty : BitVec 4} {cb : Bool} {s t : State} (h : execRegister idx ty cb s = .next t) :
    (∃ c, t = respond .illegal (Cause.data c) s ∧
      ((s.params.numUnits ≤ idx.toNat ∧ c = .indexRange) ∨
       (idx.toNat < s.params.numUnits ∧ typeReserved ty = true ∧ c = .reservedType) ∨
       (idx.toNat < s.params.numUnits ∧ typeReserved ty = false ∧ typeAbsent s.params ty = true ∧ c = .typeAbsent))) ∨
    (idx.toNat < s.params.numUnits ∧ typeReserved ty = false ∧ typeAbsent s.params ty = false ∧
      idx.toNat < s.regs.desc_type.length ∧ idx.toNat < s.regs.desc_cb.length ∧
      t = { s with
        regs := { s.regs with desc_type := s.regs.desc_type.set idx.toNat ty, desc_cb := s.regs.desc_cb.set idx.toNat cb }
        rsp_reg := some ⟨.ok, 0x0000⟩ }) := by
  unfold execRegister at h
  obtain ⟨hi, rfl⟩ | ⟨hi, h⟩ := withIndex_eq_next.mp h
  · exact .inl ⟨_, rfl, .inl ⟨hi, rfl⟩⟩
  · split at h
    · rename_i hr
      cases h
      exact .inl ⟨_, rfl, .inr (.inl ⟨hi, hr, rfl⟩)⟩
    · rename_i hr
      split at h
      · rename_i ha
        cases h
        exact .inl ⟨_, rfl, .inr (.inr ⟨hi, by simpa using hr, ha, rfl⟩)⟩
      · rename_i ha
        simp only [andThen_eq_next, memWrite_eq_next] at h
        obtain ⟨a, ⟨h1, rfl⟩, b, ⟨h2, rfl⟩, h⟩ := h
        cases h
        exact .inr ⟨hi, by simpa using hr, by simpa using ha, h1, h2, rfl⟩

theorem execSetCallback_cases {idx : Byte} {cb : Bool} {s t : State} (h : execSetCallback idx cb s = .next t) :
    (s.params.numUnits ≤ idx.toNat ∧ t = respond .illegal (Cause.data .indexRange) s) ∨
    (idx.toNat < s.params.numUnits ∧ idx.toNat < s.regs.desc_cb.length ∧
      t = { s with regs := { s.regs with desc_cb := s.regs.desc_cb.set idx.toNat cb }, rsp_reg := some ⟨.ok, 0x0000⟩ }) := by
  obtain h | ⟨hi, h⟩ := withIndex_eq_next.mp h
  · exact .inl h
  · simp only [andThen_eq_next, memWrite_eq_next] at h
    obtain ⟨a, ⟨h1, rfl⟩, h⟩ := h
    cases h
    exact .inr ⟨hi, h1, rfl⟩

theorem execEventClear_cases {idx : Byte} {s t : State} (h : execEventClear idx s = .next t) :
    (s.params.numUnits ≤ idx.toNat ∧ t = respond .illegal (Cause.data .indexRange) s) ∨
    (idx.toNat < s.params.numUnits ∧ idx.toNat < 64 ∧
      t = { s with
        regs := { s.regs with event_word := withEventBit s.regs.event_word idx.toNat false }
        rsp_reg := some ⟨.ok, 0x0000⟩ }) := by
  obtain h | ⟨hi, h⟩ := withIndex_eq_next.mp h
  · exact .inl h
  · simp only [andThen_eq_next, eventWrite_eq_next] at h
    obtain ⟨a, ⟨h1, rfl⟩, h⟩ := h
    cases h
    exact .inr ⟨hi, h1, rfl⟩

/-- A command that only reads: NOP, the four indexed reads, STATUS and the reserved opcodes. -/
def isRead : Instr → Bool
  | .nop | .status | .getInput _ | .getOutput _ | .getDesc _ | .eventGet _ => true
  | .reservedB | .reservedC | .reservedD | .reservedE | .reservedF => true
  | .submit _ _ | .register _ _ _ | .setCallback _ _ | .eventClear _ | .eventClearAll => false

/-- A reading command writes the response and nothing else. -/
theorem exec_read_cases {i : Instr} {s t : State} (hr : isRead i = true) (h : exec i s = .next t) :
    ∃ c d, t = respond c d s := by
  have idxd : ∀ {idx : Byte} {k : Nat → Result State}, withIndex idx s k = .next t →
      (∀ t, k idx.toNat = .next t → ∃ c d, t = respond c d s) → ∃ c d, t = respond c d s := by
    intro idx k h hk
    obtain ⟨-, rfl⟩ | ⟨-, h⟩ := withIndex_eq_next.mp h
    · exact ⟨_, _, rfl⟩
    · exact hk t h
  have rd : ∀ {α : Type} {r : Result α} {f : α → State} {t : State}, andThen r (fun a => .next (f a)) = .next t →
      (∀ a, ∃ c d, f a = respond c d s) → ∃ c d, t = respond c d s := by
    intro α r f t h hf
    obtain ⟨a, -, h⟩ := andThen_eq_next.mp h
    cases h
    exact hf a
  cases i with
  | nop => cases h; exact ⟨_, _, rfl⟩
  | status => cases h; exact ⟨_, _, rfl⟩
  | getInput idx =>
    unfold exec execGetInput at h
    exact idxd h fun t h => rd h fun a => ⟨_, _, rfl⟩
  | getOutput idx =>
    unfold exec execGetOutput at h
    exact idxd h fun t h => rd h fun a => ⟨_, _, rfl⟩
  | eventGet idx =>
    unfold exec execEventGet at h
    exact idxd h fun t h => rd h fun a => ⟨_, _, rfl⟩
  | getDesc idx =>
    unfold exec execGetDesc at h
    refine idxd h fun t h => ?_
    obtain ⟨a, -, h⟩ := andThen_eq_next.mp h
    exact rd h fun a => ⟨_, _, rfl⟩
  | reservedB => cases h; exact ⟨_, _, rfl⟩
  | reservedC => cases h; exact ⟨_, _, rfl⟩
  | reservedD => cases h; exact ⟨_, _, rfl⟩
  | reservedE => cases h; exact ⟨_, _, rfl⟩
  | reservedF => cases h; exact ⟨_, _, rfl⟩
  | submit u d => cases hr
  | register idx ty cb => cases hr
  | setCallback idx cb => cases hr
  | eventClear idx => cases hr
  | eventClearAll => cases hr

end Sys2Proof.Machine
end

