-- ==== Sys2Proof/Laws/Invariant.lean ====
section
/-! SUPPORT. Every event of a cycle, every command, and the cycle's boundaries keep the invariants. -/

namespace Sys2Proof.Machine

theorem inv_resetOf {p : Params} (hp : LegalParams p) (ins : List CycleInput) : Inv (State.resetOf p ins) where
  legal      := hp
  sized      := by constructor <;> simp [State.resetOf, Regs.reset]
  free_le    := by simp only [State.resetOf, Regs.reset, BitVec.toNat_ofNat]; exact Nat.mod_le _ _
  head_lt    := fun h => h
  tail_eq    := by
    intro _
    have := hp.cap_le
    simp [State.resetOf, Regs.reset, rbCount]
    rw [Nat.mod_eq_of_lt (by omega : p.rbCapacity < 256), Nat.sub_self, Nat.zero_mod]
  rx_used    := by simp [State.resetOf, Regs.reset, rxAwaitUnit]
  armed_iff  := by simp [State.resetOf, Regs.reset, rxAwaitUnit, rxAwaitData, rxResyncDiscard]
  count_zero := fun _ => rfl
  count_lt   := fun h => by cases h
  int_iff    := by
    have := hp.cap_le
    simp [State.resetOf, Regs.reset, rbCount]
    rw [Nat.mod_eq_of_lt (by omega : p.rbCapacity < 256)]
  events_lt  := fun i _ => by simp [State.resetOf, Regs.reset]

/-- The invariants speak of the parameters and the registers only. -/
theorem Inv.congr {s t : State} (h : Inv s) (hp : t.params = s.params) (hr : t.regs = s.regs) : Inv t := by
  obtain ⟨tp, tr, ti, t1, t2, t3⟩ := t
  obtain ⟨sp, sr, si, s1, s2, s3⟩ := s
  simp only at hp hr
  subst hp hr
  exact ⟨h.legal, ⟨h.sized.1, h.sized.2, h.sized.3, h.sized.4, h.sized.5⟩, h.free_le, h.head_lt, h.tail_eq, h.rx_used, h.armed_iff,
    h.count_zero, h.count_lt, h.int_iff, h.events_lt⟩

theorem inv_beginCycle {s : State} (h : Inv s) : Inv (beginCycle s) := h.congr rfl rfl

theorem inv_respond {s : State} (h : Inv s) (c : RspCode) (d : Word16) : Inv (respond c d s) := h.congr rfl rfl

theorem inv_noteDrop {s : State} (h : Inv s) (l : DropLabel) : Inv (noteDrop l s) := h.congr rfl rfl

theorem inv_drain {s : State} (h : Inv s) : Inv (drain s) :=
  ⟨h.legal, ⟨h.sized.1, h.sized.2, h.sized.3, h.sized.4, h.sized.5⟩, h.free_le, h.head_lt, h.tail_eq, h.rx_used, h.armed_iff,
    h.count_zero, h.count_lt, h.int_iff, h.events_lt⟩

/-! ## Ring arithmetic -/

theorem Inv.tail_lt {s : State} (h : Inv s) (hc : 0 < s.params.rbCapacity) : s.regs.rb_tail.toNat < s.params.rbCapacity :=
  h.tail_eq hc ▸ Nat.mod_lt _ hc

theorem ringNext_toNat {cap : Nat} (hc : 0 < cap) (hle : cap ≤ 254) (i : BitVec 8) : (ringNext cap i).toNat = (i.toNat + 1) % cap := by
  have := Nat.mod_lt (i.toNat + 1) hc
  simp only [ringNext, BitVec.toNat_ofNat]
  exact Nat.mod_eq_of_lt (by omega)

theorem free_succ_toNat {s : State} (h : Inv s) (hlt : s.regs.rb_free.toNat < s.params.rbCapacity) :
    (s.regs.rb_free + 1).toNat = s.regs.rb_free.toNat + 1 := by
  have := h.legal.cap_le
  rw [BitVec.toNat_add]
  exact Nat.mod_eq_of_lt (by show s.regs.rb_free.toNat + 1 < 256; omega)

theorem free_pred_toNat {s : State} (h : 0 < s.regs.rb_free.toNat) : (s.regs.rb_free - 1).toNat = s.regs.rb_free.toNat - 1 := by
  have h1 : (1 : BitVec 8) ≤ s.regs.rb_free := by
    rw [BitVec.le_def]; exact h
  rw [BitVec.toNat_sub_of_le h1]; rfl

/-! ## TXE -/

theorem inv_txe {s t : State} (hi : Inv s) (hen : s.regs.tx_int_en = true) (h : txe s = .next t) : Inv t := by
  obtain ⟨hm, -, rfl⟩ | ⟨hc, hm, hn, -, e, he, rfl⟩ | ⟨hc, hm, hn, -⟩ := txe_cases h
  · refine ⟨hi.legal, ⟨hi.sized.1, hi.sized.2, hi.sized.3, hi.sized.4, hi.sized.5⟩, hi.free_le, hi.head_lt, hi.tail_eq, hi.rx_used,
      hi.armed_iff, hi.count_zero, hi.count_lt, ?_, hi.events_lt⟩
    have hz : s.params.rbCapacity = 0 → rbCount s = 0 := by intro h0; simp [rbCount, h0]
    show (if _ then false else s.regs.tx_int_en) = true ↔ (false = true ∨ 0 < rbCount s)
    split
    · rename_i h0
      have : rbCount s = 0 := h0.elim hz id
      simp [this]
    · rename_i h0
      simp only [not_or] at h0
      simp [hen, Nat.pos_of_ne_zero h0.2]
  · have hlt : s.regs.rb_free.toNat < s.params.rbCapacity := by unfold rbCount at hn; omega
    have hf := free_succ_toNat hi hlt
    have hcnt : rbCount s = s.params.rbCapacity - (s.regs.rb_free + 1).toNat + 1 := by unfold rbCount; omega
    refine ⟨hi.legal, ⟨hi.sized.1, hi.sized.2, hi.sized.3, hi.sized.4, hi.sized.5⟩, ?_, ?_, ?_, hi.rx_used,
      hi.armed_iff, hi.count_zero, hi.count_lt, ?_, hi.events_lt⟩
    · show (s.regs.rb_free + 1).toNat ≤ s.params.rbCapacity
      omega
    · intro _
      show (ringNext _ _).toNat < _
      rw [ringNext_toNat hc hi.legal.cap_le]
      exact Nat.mod_lt _ hc
    · intro _
      show s.regs.rb_tail.toNat = ((ringNext s.params.rbCapacity s.regs.rb_head).toNat + (s.params.rbCapacity - (s.regs.rb_free + 1).toNat)) % _
      rw [ringNext_toNat hc hi.legal.cap_le, hi.tail_eq hc, hcnt, Nat.mod_add_mod]
      congr 1
      omega
    · simp [hen]
  · exfalso
    have := hi.int_iff.mp hen
    rw [hm] at this
    simp [hn] at this

/-! ## Receive path -/

/-- The receive transitions out of AwaitUnit (R201, R202). -/
theorem inv_arm {s : State} (h : Inv s) {x : BitVec 2} (hx : x = rxAwaitData ∨ x = rxResyncDiscard) (pu : Byte) :
    Inv (armWdt (setRx x { s with regs := { s.regs with pending_unit := pu } })) :=
  ⟨h.legal, ⟨h.sized.1, h.sized.2, h.sized.3, h.sized.4, h.sized.5⟩, h.free_le, h.head_lt, h.tail_eq,
    show x ≠ 0b11#2 by rcases hx with rfl | rfl <;> decide, ⟨fun _ => hx, fun _ => rfl⟩, fun h => (nomatch h),
    fun _ => h.legal.ticks_pos, h.int_iff, h.events_lt⟩

/-- The receive transitions into AwaitUnit (R203 to R205, R224). -/
theorem inv_disarm {s : State} (h : Inv s) : Inv (disarmWdt (setRx rxAwaitUnit s)) :=
  ⟨h.legal, ⟨h.sized.1, h.sized.2, h.sized.3, h.sized.4, h.sized.5⟩, h.free_le, h.head_lt, h.tail_eq,
    show rxAwaitUnit ≠ 0b11#2 by decide, ⟨fun h => (nomatch h), fun h => (by rcases h with h | h <;> cases h)⟩, fun _ => rfl,
    fun h => (nomatch h), h.int_iff, h.events_lt⟩

theorem inv_dispatch {u d : Byte} {s t : State} (hi : Inv s) (h : dispatch u d s = .next t) : Inv t := by
  obtain ⟨-, rfl⟩ | ⟨hr, hl, h64, cb, hcb, rfl⟩ := dispatch_eq_next.mp h
  · exact inv_noteDrop hi _
  · refine ⟨hi.legal, ⟨hi.sized.1, hi.sized.2, hi.sized.3, ?_, hi.sized.5⟩, hi.free_le, hi.head_lt, hi.tail_eq, hi.rx_used, hi.armed_iff,
      hi.count_zero, hi.count_lt, hi.int_iff, fun j hj => ?_⟩
    · show (s.regs.in_val.set _ _).length = _
      rw [List.length_set]; exact hi.sized.in_val
    · show (withEventBit _ _ _).getLsbD j = false
      rw [getLsbD_withEventBit _ h64, if_neg, hi.events_lt j hj]
      have : unitIndex u < s.params.numUnits := hr.1
      intro heq
      exact absurd (heq ▸ hj : s.params.numUnits ≤ unitIndex u) (by omega)

theorem inv_rxc {b : Byte} {err : Bool} {s t : State} (hi : Inv s) (h : rxc b err s = .next t) : Inv t := by
  obtain ⟨-, -, rfl⟩ | ⟨-, -, rfl⟩ | ⟨-, -, rfl⟩ | ⟨-, rfl⟩ | ⟨-, -, h⟩ := rxc_cases h
  · exact inv_arm hi (.inl rfl) b
  · exact inv_noteDrop (inv_arm hi (.inr rfl) s.regs.pending_unit) _
  · exact inv_noteDrop (inv_disarm hi) _
  · exact inv_noteDrop (inv_disarm hi) _
  · exact inv_dispatch (inv_disarm hi) h

theorem inv_tick {s t : State} (hi : Inv s) (h : tick s = .next t) : Inv t := by
  obtain ⟨-, rfl⟩ | ⟨ha, hl, rfl⟩ | ⟨-, -, rfl⟩ := tick_cases h
  · exact hi
  · have hle := hi.legal.ticks_le
    have hs : (s.regs.wdt_count + 1).toNat = s.regs.wdt_count.toNat + 1 := by
      rw [BitVec.toNat_add]
      exact Nat.mod_eq_of_lt (by show s.regs.wdt_count.toNat + 1 < 65536; omega)
    refine ⟨hi.legal, ⟨hi.sized.1, hi.sized.2, hi.sized.3, hi.sized.4, hi.sized.5⟩, hi.free_le, hi.head_lt, hi.tail_eq, hi.rx_used,
      hi.armed_iff, fun h => ?_, fun _ => ?_, hi.int_iff, hi.events_lt⟩
    · exact absurd ha (by rw [show s.regs.wdt_armed = false from h]; decide)
    · show (s.regs.wdt_count + 1).toNat < s.params.wdtTicks
      omega
  · exact inv_noteDrop (inv_disarm hi) _

/-! ## Commands -/

theorem inv_execSubmit {u d : Byte} {s t : State} (hi : Inv s) (h : execSubmit u d s = .next t) : Inv t := by
  have hout : ∀ a : List Byte, a = (if unitIndex u < s.params.numUnits then s.regs.out_val.set (unitIndex u) d else s.regs.out_val) →
      a.length = s.params.numUnits := by
    rintro a rfl
    split
    · rw [List.length_set]; exact hi.sized.out_val
    · exact hi.sized.out_val
  obtain (⟨-, -, rfl⟩ | ⟨-, -, rfl⟩) | ⟨hc, hf, hen, -, rfl⟩ | ⟨hc, hpos, hlt, -, rfl⟩ := execSubmit_cases h
  · exact inv_respond hi _ _
  · exact inv_respond hi _ _
  · exact ⟨hi.legal, ⟨hi.sized.1, hi.sized.2, hi.sized.3, hi.sized.4, hout _ rfl⟩, hi.free_le, hi.head_lt, hi.tail_eq, hi.rx_used,
      hi.armed_iff, hi.count_zero, hi.count_lt, ⟨fun _ => .inl rfl, fun _ => rfl⟩, hi.events_lt⟩
  · have hf := free_pred_toNat hpos
    have hle := hi.free_le
    refine ⟨hi.legal, ⟨?_, hi.sized.2, hi.sized.3, hi.sized.4, hout _ rfl⟩, ?_, hi.head_lt, ?_, hi.rx_used,
      hi.armed_iff, hi.count_zero, hi.count_lt, ⟨fun _ => .inr ?_, fun _ => rfl⟩, hi.events_lt⟩
    · show (s.regs.rb_mem.set _ _).length = _
      rw [List.length_set]; exact hi.sized.rb_mem
    · show (s.regs.rb_free - 1).toNat ≤ s.params.rbCapacity
      omega
    · intro _
      show (ringNext _ _).toNat = (s.regs.rb_head.toNat + (s.params.rbCapacity - (s.regs.rb_free - 1).toNat)) % _
      rw [ringNext_toNat hc hi.legal.cap_le, hi.tail_eq hc, hf, Nat.mod_add_mod]
      congr 1
      unfold rbCount
      omega
    · show 0 < s.params.rbCapacity - (s.regs.rb_free - 1).toNat
      omega

theorem inv_execRegister {idx : Byte} {ty : BitVec 4} {cb : Bool} {s t : State} (hi : Inv s) (h : execRegister idx ty cb s = .next t) :
    Inv t := by
  obtain ⟨c, rfl, -⟩ | ⟨-, -, -, -, -, rfl⟩ := execRegister_cases h
  · exact inv_respond hi _ _
  · exact ⟨hi.legal, ⟨hi.sized.1, by simpa using hi.sized.2, by simpa using hi.sized.3, hi.sized.4, hi.sized.5⟩, hi.free_le, hi.head_lt,
      hi.tail_eq, hi.rx_used, hi.armed_iff, hi.count_zero, hi.count_lt, hi.int_iff, hi.events_lt⟩

theorem inv_execSetCallback {idx : Byte} {cb : Bool} {s t : State} (hi : Inv s) (h : execSetCallback idx cb s = .next t) : Inv t := by
  obtain ⟨-, rfl⟩ | ⟨-, -, rfl⟩ := execSetCallback_cases h
  · exact inv_respond hi _ _
  · exact ⟨hi.legal, ⟨hi.sized.1, hi.sized.2, by simpa using hi.sized.3, hi.sized.4, hi.sized.5⟩, hi.free_le, hi.head_lt,
      hi.tail_eq, hi.rx_used, hi.armed_iff, hi.count_zero, hi.count_lt, hi.int_iff, hi.events_lt⟩

theorem inv_execEventClear {idx : Byte} {s t : State} (hi : Inv s) (h : execEventClear idx s = .next t) : Inv t := by
  obtain ⟨-, rfl⟩ | ⟨-, h64, rfl⟩ := execEventClear_cases h
  · exact inv_respond hi _ _
  · refine ⟨hi.legal, ⟨hi.sized.1, hi.sized.2, hi.sized.3, hi.sized.4, hi.sized.5⟩, hi.free_le, hi.head_lt,
      hi.tail_eq, hi.rx_used, hi.armed_iff, hi.count_zero, hi.count_lt, hi.int_iff, fun j hj => ?_⟩
    show (withEventBit _ _ _).getLsbD j = false
    rw [getLsbD_withEventBit _ h64]
    split
    · rfl
    · exact hi.events_lt j hj

theorem inv_execEventClearAll {s t : State} (hi : Inv s) (h : execEventClearAll s = .next t) : Inv t := by
  cases h
  exact ⟨hi.legal, ⟨hi.sized.1, hi.sized.2, hi.sized.3, hi.sized.4, hi.sized.5⟩, hi.free_le, hi.head_lt,
    hi.tail_eq, hi.rx_used, hi.armed_iff, hi.count_zero, hi.count_lt, hi.int_iff, fun j _ => by simp⟩

theorem inv_exec {i : Instr} {s t : State} (hi : Inv s) (h : exec i s = .next t) : Inv t := by
  have rd : isRead i = true → Inv t := fun hr => by
    obtain ⟨c, d, rfl⟩ := exec_read_cases hr h
    exact inv_respond hi _ _
  cases i with
  | submit u d => exact inv_execSubmit hi h
  | register idx ty cb => exact inv_execRegister hi h
  | setCallback idx cb => exact inv_execSetCallback hi h
  | eventClear idx => exact inv_execEventClear hi h
  | eventClearAll => exact inv_execEventClearAll hi h
  | nop => exact rd rfl
  | status => exact rd rfl
  | getInput idx => exact rd rfl
  | getOutput idx => exact rd rfl
  | getDesc idx => exact rd rfl
  | eventGet idx => exact rd rfl
  | reservedB => exact rd rfl
  | reservedC => exact rd rfl
  | reservedD => exact rd rfl
  | reservedE => exact rd rfl
  | reservedF => exact rd rfl

end Sys2Proof.Machine
end

