-- ==== Sys2Proof/Laws/PerInstr.lean ====
section
/-! SUPPORT. Per-instruction statements. Family OpField: the word of each command carries its opcode of 30_encoding.md R132. -/

namespace Sys2Proof.Laws

/-- The column "op" of R132. -/
def OpField.opcode : Instr → BitVec 4
  | .nop             => 0x0
  | .submit _ _      => 0x1
  | .register _ _ _  => 0x2
  | .setCallback _ _ => 0x3
  | .getInput _      => 0x4
  | .getOutput _     => 0x5
  | .getDesc _       => 0x6
  | .eventGet _      => 0x7
  | .eventClear _    => 0x8
  | .eventClearAll   => 0x9
  | .status          => 0xA
  | .reservedB       => 0xB
  | .reservedC       => 0xC
  | .reservedD       => 0xD
  | .reservedE       => 0xE
  | .reservedF       => 0xF

/-- The encoded word's bits 23:20 are the command's opcode. -/
def OpField.Statement (i : Instr) : Prop := opField (encode i) = OpField.opcode i

theorem OpField.nop : OpField.Statement .nop := opField_packWord _ _ _ _
theorem OpField.submit (u d : Byte) : OpField.Statement (.submit u d) := opField_packWord _ _ _ _
theorem OpField.register (idx : Byte) (t : BitVec 4) (cb : Bool) : OpField.Statement (.register idx t cb) := opField_packWord _ _ _ _
theorem OpField.setCallback (idx : Byte) (cb : Bool) : OpField.Statement (.setCallback idx cb) := opField_packWord _ _ _ _
theorem OpField.getInput (idx : Byte) : OpField.Statement (.getInput idx) := opField_packWord _ _ _ _
theorem OpField.getOutput (idx : Byte) : OpField.Statement (.getOutput idx) := opField_packWord _ _ _ _
theorem OpField.getDesc (idx : Byte) : OpField.Statement (.getDesc idx) := opField_packWord _ _ _ _
theorem OpField.eventGet (idx : Byte) : OpField.Statement (.eventGet idx) := opField_packWord _ _ _ _
theorem OpField.eventClear (idx : Byte) : OpField.Statement (.eventClear idx) := opField_packWord _ _ _ _
theorem OpField.eventClearAll : OpField.Statement .eventClearAll := opField_packWord _ _ _ _
theorem OpField.status : OpField.Statement .status := opField_packWord _ _ _ _
theorem OpField.reservedB : OpField.Statement .reservedB := opField_packWord _ _ _ _
theorem OpField.reservedC : OpField.Statement .reservedC := opField_packWord _ _ _ _
theorem OpField.reservedD : OpField.Statement .reservedD := opField_packWord _ _ _ _
theorem OpField.reservedE : OpField.Statement .reservedE := opField_packWord _ _ _ _
theorem OpField.reservedF : OpField.Statement .reservedF := opField_packWord _ _ _ _

end Sys2Proof.Laws
end

