-- ==== Sys2Proof/Laws/Progress.lean ====
section
/-! SUPPORT. Where the invariants hold every event and every command answers a next state: with them, no cycle stops. -/

namespace Sys2Proof.Machine

/-- An index below NUM_UNITS, or of six bits, is one of the event word's. -/
theorem unitIndex_lt (u : Byte) : unitIndex u < 64 := (u.extractLsb' 0 6).isLt

theorem thrWrite_goes {b : Byte} {s : State} (h : s.regs.thr_full = false) : ∃ t, thrWrite b s = .next t := ⟨_, thrWrite_empty h⟩

theorem memRead_goes {α : Type} {a : List α} {i : Nat} (h : i < a.length) : ∃ v, memRead a i = .next v :=
  ⟨a[i], memRead_eq_next.mpr (List.getElem?_eq_getElem h)⟩

theorem andThen_goes {α β : Type} {r : Result α} {k : α → Result β} (h1 : ∃ a, r = .next a) (h2 : ∀ a, r = .next a → ∃ b, k a = .next b) :
    ∃ b, andThen r k = .next b := by
  obtain ⟨a, h⟩ := h1
  obtain ⟨b, hb⟩ := h2 a h
  exact ⟨b, andThen_eq_next.mpr ⟨a, h, hb⟩⟩

theorem recordOutput_goes {u d : Byte} {s : State} (h : s.regs.out_val.length = s.params.numUnits) : ∃ t, recordOutput u d s = .next t :=
  ⟨_, recordOutput_eq_next.mpr ⟨fun hu => by omega, rfl⟩⟩

theorem txe_goes {s : State} (hi : Inv s) (hen : txeEnabled s = true) : ∃ t, txe s = .next t := by
  obtain ⟨hint, hf⟩ : s.regs.tx_int_en = true ∧ s.regs.thr_full = false := by simpa [txeEnabled, txReady] using hen
  unfold txe
  split
  · rename_i hc
    have hm : s.regs.mid_pair = true := by simpa [rbCount, hc] using hi.int_iff.mp hint
    simp only [txeQueueless, hm, if_true]
    exact andThen_goes (thrWrite_goes hf) fun a _ => ⟨_, rfl⟩
  · rename_i hc
    split
    · exact andThen_goes (thrWrite_goes hf) fun a _ => ⟨_, rfl⟩
    · split
      · rename_i hn
        have hc' : 0 < s.params.rbCapacity := Nat.pos_of_ne_zero hc
        have hlt : s.regs.rb_free.toNat < s.params.rbCapacity := by unfold rbCount at hn; omega
        refine andThen_goes ⟨(_, _), dequeue_eq_next.mpr ⟨hc', hlt,
          List.getElem?_eq_getElem (by rw [hi.sized.rb_mem]; exact hi.head_lt hc'), rfl⟩⟩ fun es hd => ?_
        obtain ⟨e, s1⟩ := es
        obtain ⟨-, -, -, rfl⟩ := dequeue_eq_next.mp hd
        exact andThen_goes (thrWrite_goes hf) fun a _ => ⟨_, rfl⟩
      · exact ⟨_, rfl⟩

theorem dispatch_goes {u d : Byte} {s : State} (hi : Inv s) : ∃ t, dispatch u d s = .next t := by
  by_cases hr : Registered s (unitIndex u)
  · have hlt : unitIndex u < s.params.numUnits := hr.1
    exact ⟨_, dispatch_eq_next.mpr (.inr ⟨hr, by rw [hi.sized.in_val]; exact hlt, unitIndex_lt u, _,
      List.getElem?_eq_getElem (by rw [hi.sized.desc_cb]; exact hlt), rfl⟩)⟩
  · refine ⟨_, dispatch_eq_next.mpr (.inl ⟨?_, rfl⟩)⟩
    by_cases hlt : s.params.numUnits ≤ unitIndex u
    · exact .inl hlt
    · refine .inr ?_
      have hl : unitIndex u < s.regs.desc_type.length := by rw [hi.sized.desc_type]; omega
      rw [List.getElem?_eq_getElem hl]
      by_contra hne
      exact hr ⟨by omega, _, List.getElem?_eq_getElem hl, fun h => hne (by rw [h])⟩

theorem rxc_goes {s : State} (hi : Inv s) (b : Byte) (err : Bool) : ∃ t, rxc b err s = .next t := by
  have four : ∀ x : BitVec 2, x ≠ 0b11#2 → x ≠ rxAwaitUnit → x ≠ rxAwaitData → x = rxResyncDiscard := by decide
  unfold rxc
  split
  · cases err <;> exact ⟨_, rfl⟩
  · rename_i h0
    split
    · cases err
      · exact dispatch_goes (inv_disarm hi)
      · exact ⟨_, rfl⟩
    · rename_i h1
      rw [if_pos (four _ hi.rx_used h0 h1)]
      exact ⟨_, rfl⟩

theorem tick_goes {s : State} (hi : Inv s) : ∃ t, tick s = .next t := by
  unfold tick
  split
  · rename_i ha
    have := hi.count_lt ha
    split
    · exact ⟨_, rfl⟩
    · rw [if_pos (by omega)]
      exact ⟨_, rfl⟩
  · exact ⟨_, rfl⟩

theorem withIndex_goes {idx : Byte} {s : State} {k : Nat → Result State}
    (h : idx.toNat < s.params.numUnits → ∃ t, k idx.toNat = .next t) : ∃ t, withIndex idx s k = .next t := by
  by_cases hi : s.params.numUnits ≤ idx.toNat
  · exact ⟨_, withIndex_out hi k⟩
  · rw [withIndex_in (by omega) k]
    exact h (by omega)

theorem execSubmit_goes {s : State} (hi : Inv s) (u d : Byte) : ∃ t, execSubmit u d s = .next t := by
  unfold execSubmit
  split
  · unfold submitQueueless
    split
    · exact ⟨_, rfl⟩
    · rename_i hb
      have hf : s.regs.thr_full = false := by
        cases h : s.regs.thr_full <;> simp_all [queuelessBusy]
      refine andThen_goes (thrWrite_goes hf) fun s1 h1 => ?_
      obtain ⟨-, rfl⟩ := thrWrite_eq_next.mp h1
      exact andThen_goes (recordOutput_goes hi.sized.out_val) fun _ _ => ⟨_, rfl⟩
  · rename_i hc
    have hc' : 0 < s.params.rbCapacity := Nat.pos_of_ne_zero hc
    unfold submitBuffered
    split
    · exact ⟨_, rfl⟩
    · rename_i hb
      have hf : 0 < s.regs.rb_free.toNat := by
        refine Nat.pos_of_ne_zero fun h => hb ?_
        simpa [queueFull] using BitVec.eq_of_toNat_eq h
      refine andThen_goes ⟨_, enqueue_eq_next.mpr ⟨hc', hf, by rw [hi.sized.rb_mem]; exact hi.tail_lt hc', rfl⟩⟩ fun s1 h1 => ?_
      obtain ⟨-, -, -, rfl⟩ := enqueue_eq_next.mp h1
      exact andThen_goes (recordOutput_goes hi.sized.out_val) fun _ _ => ⟨_, rfl⟩

/-- Every command completes where the invariants hold. -/
theorem exec_goes {s : State} (hi : Inv s) (i : Instr) : ∃ t, exec i s = .next t := by
  have h64 := hi.legal.units_le
  have hw : ∀ {α : Type} {a : List α} {i : Nat} {v : α}, i < a.length → ∃ b, memWrite a i v = .next b :=
    fun h => ⟨_, memWrite_eq_next.mpr ⟨h, rfl⟩⟩
  cases i with
  | submit u d => exact execSubmit_goes hi u d
  | register idx ty cb =>
    unfold exec execRegister
    refine withIndex_goes fun h => ?_
    split
    · exact ⟨_, rfl⟩
    · split
      · exact ⟨_, rfl⟩
      · exact andThen_goes (hw (by rw [hi.sized.desc_type]; exact h)) fun _ _ =>
          andThen_goes (hw (by rw [hi.sized.desc_cb]; exact h)) fun _ _ => ⟨_, rfl⟩
  | setCallback idx cb =>
    unfold exec execSetCallback
    exact withIndex_goes fun h => andThen_goes (hw (by rw [hi.sized.desc_cb]; exact h)) fun _ _ => ⟨_, rfl⟩
  | getInput idx =>
    unfold exec execGetInput
    exact withIndex_goes fun h => andThen_goes (memRead_goes (by rw [hi.sized.in_val]; exact h)) fun _ _ => ⟨_, rfl⟩
  | getOutput idx =>
    unfold exec execGetOutput
    exact withIndex_goes fun h => andThen_goes (memRead_goes (by rw [hi.sized.out_val]; exact h)) fun _ _ => ⟨_, rfl⟩
  | getDesc idx =>
    unfold exec execGetDesc
    exact withIndex_goes fun h => andThen_goes (memRead_goes (by rw [hi.sized.desc_cb]; exact h)) fun _ _ =>
      andThen_goes (memRead_goes (by rw [hi.sized.desc_type]; exact h)) fun _ _ => ⟨_, rfl⟩
  | eventGet idx =>
    unfold exec execEventGet
    exact withIndex_goes fun h => andThen_goes ⟨_, eventRead_eq_next.mpr ⟨by omega, rfl⟩⟩ fun _ _ => ⟨_, rfl⟩
  | eventClear idx =>
    unfold exec execEventClear
    exact withIndex_goes fun h => andThen_goes ⟨_, eventWrite_eq_next.mpr ⟨by omega, rfl⟩⟩ fun _ _ => ⟨_, rfl⟩
  | eventClearAll => exact ⟨_, rfl⟩
  | nop => exact ⟨_, rfl⟩
  | status => exact ⟨_, rfl⟩
  | reservedB => exact ⟨_, rfl⟩
  | reservedC => exact ⟨_, rfl⟩
  | reservedD => exact ⟨_, rfl⟩
  | reservedE => exact ⟨_, rfl⟩
  | reservedF => exact ⟨_, rfl⟩

/-! ## The phases of a cycle keep the invariants -/

theorem inv_drainPhase {s : State} (hi : Inv s) (c : CycleInput) : Inv (drainPhase c s) := by
  unfold drainPhase
  split
  · exact inv_drain hi
  · exact hi

theorem inv_txePhase {s t : State} (hi : Inv s) (h : txePhase s = .next t) : Inv t := by
  unfold txePhase at h
  split at h
  · rename_i hen
    exact inv_txe hi (by simp only [txeEnabled, Bool.and_eq_true] at hen; exact hen.1) h
  · cases h; exact hi

theorem inv_hostPhase {c : CycleInput} {s t : State} (hi : Inv s) (h : hostPhase c s = .next t) : Inv t := by
  unfold hostPhase at h
  split at h
  · exact inv_exec hi h
  · cases h; exact hi

theorem inv_rxPhase {c : CycleInput} {s t : State} (hi : Inv s) (h : rxPhase c s = .next t) : Inv t := by
  unfold rxPhase at h
  split at h
  · exact inv_rxc hi h
  · cases h; exact hi

theorem inv_tickPhase {c : CycleInput} {s t : State} (hi : Inv s) (h : tickPhase c s = .next t) : Inv t := by
  unfold tickPhase at h
  split at h
  · exact inv_tick hi h
  · cases h; exact hi

end Sys2Proof.Machine
end

