-- ==== Sys2Proof/Laws/Queue.lean ====
section
/-! SUPPORT. Enqueue and Dequeue as operations on the queue's contents (20_memory.md R90 to R92). -/

namespace Sys2Proof.Machine

/-- What the ring's own invariants (R37, R60, R61, R50) say of a state with a ring. -/
structure RingOk (s : State) : Prop where
  cap_pos : 0 < s.params.rbCapacity
  cap_le  : s.params.rbCapacity ≤ 254
  length  : s.regs.rb_mem.length = s.params.rbCapacity
  free_le : s.regs.rb_free.toNat ≤ s.params.rbCapacity
  head_lt : s.regs.rb_head.toNat < s.params.rbCapacity
  tail_eq : s.regs.rb_tail.toNat = (s.regs.rb_head.toNat + rbCount s) % s.params.rbCapacity

theorem Inv.ringOk {s : State} (h : Inv s) (hc : 0 < s.params.rbCapacity) : RingOk s :=
  ⟨hc, h.legal.cap_le, h.sized.rb_mem, h.free_le, h.head_lt hc, h.tail_eq hc⟩

/-- The queue depends on the ring's registers only. -/
theorem queue_congr {s t : State} (hp : t.params.rbCapacity = s.params.rbCapacity) (hm : t.regs.rb_mem = s.regs.rb_mem)
    (hh : t.regs.rb_head = s.regs.rb_head) (hf : t.regs.rb_free = s.regs.rb_free) : queue t = queue s := by
  simp [queue, rbCount, hp, hm, hh, hf]

@[simp] theorem length_queue (s : State) : (queue s).length = rbCount s := by simp [queue]

theorem queue_eq_nil_iff {s : State} : queue s = [] ↔ rbCount s = 0 := by
  rw [← List.length_eq_zero_iff, length_queue]

/-- Two offsets below the capacity that name the same slot are equal. -/
theorem ring_slot_inj {cap h i j : Nat} (hij : i < j) (hj : j < cap + i) : (h + i) % cap ≠ (h + j) % cap := by
  intro heq
  have h1 : (h + j - (h + i)) % cap = 0 := Nat.sub_mod_eq_zero_of_mod_eq heq.symm
  rw [Nat.mod_eq_of_lt (by omega)] at h1
  omega

/-- Enqueue where it is defined: it completes, appends the entry and keeps the ring. -/
theorem enqueue_spec {s : State} (h : RingOk s) (hf : 0 < s.regs.rb_free.toNat) (e : Word16) :
    ∃ t, enqueue e s = .next t ∧ queue t = queue s ++ [e] ∧ RingOk t ∧ rbCount t = rbCount s + 1 ∧
      t.regs.rb_free.toNat = s.regs.rb_free.toNat - 1 ∧ t.params = s.params := by
  have hfp := free_pred_toNat hf
  have hlt : s.regs.rb_tail.toNat < s.params.rbCapacity := h.tail_eq ▸ Nat.mod_lt _ h.cap_pos
  have hle := h.free_le
  refine ⟨_, enqueue_eq_next.mpr ⟨h.cap_pos, hf, by rw [h.length]; exact hlt, rfl⟩, ?_, ?_, ?_, hfp, rfl⟩
  · have hcnt : s.params.rbCapacity - (s.regs.rb_free - 1).toNat = rbCount s + 1 := by unfold rbCount; omega
    simp only [queue, rbCount, hcnt, List.range_succ, List.map_append, List.map_cons, List.map_nil]
    congr 1
    · apply List.map_congr_left
      intro k hk
      have hk' : k < rbCount s := List.mem_range.mp hk
      have hne : s.regs.rb_tail.toNat ≠ (s.regs.rb_head.toNat + k) % s.params.rbCapacity := by
        rw [h.tail_eq]
        exact (ring_slot_inj hk' (by unfold rbCount at *; omega)).symm
      simp [List.getD_eq_getElem?_getD, List.getElem?_set_ne hne]
    · congr 1
      show (s.regs.rb_mem.set s.regs.rb_tail.toNat e).getD ((s.regs.rb_head.toNat + rbCount s) % _) 0 = e
      rw [← h.tail_eq]
      simp [List.getD_eq_getElem?_getD, h.length, hlt]
  · refine ⟨h.cap_pos, h.cap_le, by simpa using h.length, ?_, h.head_lt, ?_⟩
    · show (s.regs.rb_free - 1).toNat ≤ s.params.rbCapacity
      omega
    · show (ringNext _ _).toNat = (s.regs.rb_head.toNat + (s.params.rbCapacity - (s.regs.rb_free - 1).toNat)) % s.params.rbCapacity
      rw [ringNext_toNat h.cap_pos h.cap_le, h.tail_eq, hfp, Nat.mod_add_mod]
      congr 1
      unfold rbCount
      omega
  · show s.params.rbCapacity - (s.regs.rb_free - 1).toNat = rbCount s + 1
    unfold rbCount
    omega

/-- Dequeue where it is defined: it completes, takes the oldest entry and keeps the ring. -/
theorem dequeue_spec {s : State} (h : RingOk s) (hn : 0 < rbCount s) :
    ∃ e t, dequeue s = .next (e, t) ∧ queue s = e :: queue t ∧ RingOk t ∧ rbCount t = rbCount s - 1 ∧ t.params = s.params := by
  have hlt : s.regs.rb_free.toNat < s.params.rbCapacity := by unfold rbCount at hn; omega
  have hfs : (s.regs.rb_free + 1).toNat = s.regs.rb_free.toNat + 1 := by
    have := h.cap_le
    rw [BitVec.toNat_add]
    exact Nat.mod_eq_of_lt (by show s.regs.rb_free.toNat + 1 < 256; omega)
  have hhd : s.regs.rb_head.toNat < s.regs.rb_mem.length := by rw [h.length]; exact h.head_lt
  have hcnt : s.params.rbCapacity - (s.regs.rb_free + 1).toNat = rbCount s - 1 := by unfold rbCount; omega
  refine ⟨_, _, dequeue_eq_next.mpr ⟨h.cap_pos, hlt, List.getElem?_eq_getElem hhd, rfl⟩, ?_, ?_, hcnt, rfl⟩
  · have hr : rbCount s = (rbCount s - 1) + 1 := by omega
    rw [queue, hr, List.range_succ_eq_map, List.map_cons, List.map_map]
    congr 1
    · simp [List.getD_eq_getElem?_getD, Nat.mod_eq_of_lt h.head_lt, List.getElem?_eq_getElem hhd]
    · simp only [queue, rbCount, hcnt]
      apply List.map_congr_left
      intro k _
      simp only [Function.comp_apply]
      rw [ringNext_toNat h.cap_pos h.cap_le, Nat.mod_add_mod]
      congr 2
      omega
  · refine ⟨h.cap_pos, h.cap_le, h.length, ?_, ?_, ?_⟩
    · show (s.regs.rb_free + 1).toNat ≤ s.params.rbCapacity
      omega
    · show (ringNext _ _).toNat < s.params.rbCapacity
      rw [ringNext_toNat h.cap_pos h.cap_le]
      exact Nat.mod_lt _ h.cap_pos
    · show s.regs.rb_tail.toNat = ((ringNext s.params.rbCapacity s.regs.rb_head).toNat + (s.params.rbCapacity - (s.regs.rb_free + 1).toNat)) % s.params.rbCapacity
      rw [ringNext_toNat h.cap_pos h.cap_le, h.tail_eq, hcnt, Nat.mod_add_mod]
      congr 1
      omega

end Sys2Proof.Machine
end

