-- ==== Sys2Proof/Laws/Run.lean ====
section
/-! SUPPORT. Host.Core.run of this machine, one step at a time, in the model's own types. -/

namespace Sys2Proof.Machine

theorem run_zero (s : State) : Host.Core.run Sys2Proof.core 0 s = .next s := rfl

theorem run_succ_next {k : Nat} {s s1 : State} (h : step s = .next s1) :
    Host.Core.run Sys2Proof.core (k + 1) s = Host.Core.run Sys2Proof.core k s1 := by
  have hc : Sys2Proof.core.step s = Host.Outcome.next s1 := h
  simp only [Host.Core.run]
  rw [hc]

theorem run_succ_eq_next {k : Nat} {s t : State} :
    Host.Core.run Sys2Proof.core (k + 1) s = .next t ↔ ∃ s1, step s = .next s1 ∧ Host.Core.run Sys2Proof.core k s1 = .next t := by
  constructor
  · intro h
    cases hs : step s with
    | next s1 => exact ⟨s1, rfl, by rw [← run_succ_next hs]; exact h⟩
    | fault f =>
      have hc : Sys2Proof.core.step s = Host.Outcome.fault f := hs
      simp only [Host.Core.run, hc] at h
      cases h
    | refused q =>
      have hc : Sys2Proof.core.step s = Host.Outcome.refused q := hs
      simp only [Host.Core.run, hc] at h
      cases h
  · rintro ⟨s1, hs, h⟩
    rw [run_succ_next hs]; exact h

end Sys2Proof.Machine
end

