-- ==== Sys2Proof/Tests/Slice0.lean ====
section
/-! SUPPORT. Tests. Expected results are those of spec/95_test_vectors.md (the row is named) or of the rule named; then, for every statement with
hypotheses, a witness: a concrete state and operands that meet all of them, for each clause. -/

namespace Sys2Proof.Tests

open Sys2Proof.Machine

/-! ## WellFormed: an ill-formed term for each check, refused (30_encoding.md R136: an index is six bits) -/

theorem test_wf_register : (Instr.register 64 4 false).wellFormed = false := by decide
theorem test_wf_setCallback : (Instr.setCallback 64 true).wellFormed = false := by decide
theorem test_wf_getInput : (Instr.getInput 255).wellFormed = false := by decide
theorem test_wf_getOutput : (Instr.getOutput 64).wellFormed = false := by decide
theorem test_wf_getDesc : (Instr.getDesc 128).wellFormed = false := by decide
theorem test_wf_eventGet : (Instr.eventGet 64).wellFormed = false := by decide
theorem test_wf_eventClear : (Instr.eventClear 192).wellFormed = false := by decide
theorem test_wf_accepts : (Instr.register 63 15 true).wellFormed = true ∧ (Instr.submit 0xFF 0xFF).wellFormed = true := by decide

/-! ## Decoding: words written out field by field, op A U D (R131, R132, R136) -/

theorem test_decode_nop : decode 0b0000_0000_00000000_00000000 = .nop := by decide
theorem test_decode_submit : decode 0b0001_0000_00000011_01000001 = .submit 0x03 0x41 := by decide
theorem test_decode_register : decode 0b0010_0011_00000010_00000001 = .register 2 3 true := by decide
theorem test_decode_setCallback : decode 0b0011_0000_00000101_00000001 = .setCallback 5 true := by decide
theorem test_decode_getInput : decode 0b0100_0000_00000101_00000000 = .getInput 5 := by decide
theorem test_decode_getOutput : decode 0b0101_0000_00000011_00000000 = .getOutput 3 := by decide
theorem test_decode_getDesc : decode 0b0110_0000_00000010_00000000 = .getDesc 2 := by decide
theorem test_decode_eventGet : decode 0b0111_0000_00000101_00000000 = .eventGet 5 := by decide
theorem test_decode_eventClear : decode 0b1000_0000_00000101_00000000 = .eventClear 5 := by decide
theorem test_decode_eventClearAll : decode 0b1001_0000_00000000_00000000 = .eventClearAll := by decide
theorem test_decode_status : decode 0b1010_0000_00000000_00000000 = .status := by decide
theorem test_decode_reserved : decode 0b1011_0000_00000000_00000000 = .reservedB ∧ decode 0b1100_0001_00100011_01000101 = .reservedC ∧
    decode 0b1101_0000_00000000_00000000 = .reservedD ∧ decode 0b1110_0000_00000000_00000000 = .reservedE ∧
    decode 0b1111_1111_11111111_11111111 = .reservedF := by decide

/-- Ignored bits: RG2, RG9, RG10, Z5, Z6, Z7. -/
theorem test_decode_ignored : decode 0x0FFFFF = .nop ∧ decode 0x24C500 = .register 5 4 false ∧ decode 0x2405FE = .register 5 4 false ∧
    decode 0x9FFFFF = .eventClearAll ∧ decode 0xAFFFFF = .status ∧ decode 0x1FFFFF = .submit 0xFF 0xFF := by decide

/-- R145's example, and two words of section 0. -/
theorem test_encode : encode (.register 5 4 false) = 0x240500 ∧ encode (.submit 0x03 0x41) = 0x100341 ∧ encode (.setCallback 5 true) = 0x300501 := by decide

theorem test_decodeBits : decodeBits 24 0xA00000 = .ok .status ∧ decodeBits 8 0xFF = .ok .nop ∧
    decodeBits 25 0 = .error .notOneWord ∧ decodeBits 8 0x100 = .error .notOneWord := ⟨rfl, rfl, rfl, rfl⟩

/-! ## Small states -/

/-- Eight units, WDT_TICKS = 3, the given ring capacity. -/
def params (cap : Nat) : Params := ⟨cap, 8, true, true, 1000000, 3⟩

/-- The reset state of that instance. -/
def st (cap : Nat) : State := State.resetOf (params cap) []

/-- The state with one cycle's input to come. -/
def given (c : CycleInput) (s : State) : State := { s with inputs := [c] }

/-- Unit 5 registered as GPIO with the given callback flag. -/
def unit5 (cb : Bool) (s : State) : State :=
  { s with regs := { s.regs with desc_type := s.regs.desc_type.set 5 4, desc_cb := s.regs.desc_cb.set 5 cb } }

/-- A clean unit byte u has just been received. -/
def awaiting (u : Byte) (s : State) : State :=
  { s with regs := { s.regs with rx_state := 0b01, pending_unit := u, wdt_armed := true } }

/-- THR holds u and d is the pending second byte. -/
def sending (u d : Byte) (s : State) : State :=
  { s with regs := { s.regs with thr_full := true, thr_byte := u, second_byte := d, mid_pair := true, tx_int_en := true } }

/-- One entry queued in slot 0 of a ring of capacity 4. -/
def queued (e : Word16) (s : State) : State :=
  { s with regs := { s.regs with rb_mem := [e, 0, 0, 0], rb_tail := 1, rb_free := 3, tx_int_en := true } }

/-- A full ring of capacity 4 whose tail is at slot 1 (P1, step 6). -/
def fullRing : State :=
  { st 4 with regs := { (st 4).regs with rb_mem := [0x0555, 0x0222, 0x0333, 0x0444], rb_head := 1, rb_tail := 1, rb_free := 0, tx_int_en := true } }

/-- Something of the next state, if there is one. -/
def after {α β : Type} (f : α → β) (r : Result α) : Option β :=
  match r with
  | .next t => some (f t)
  | _       => none

def tickIn : CycleInput := { CycleInput.idle with tick := true }
def drainIn : CycleInput := { CycleInput.idle with drain := true }
def rx (b : Byte) : CycleInput := { CycleInput.idle with rx := some ⟨b, false, false⟩ }
def cmd (w : CmdWord) : CycleInput := { CycleInput.idle with cmd := some w }

/-! ## Commands -/

theorem test_nop : after (·.rsp_reg) (exec .nop (st 0)) = some (some ⟨.ok, 0⟩) := by decide                     -- RG1

theorem test_submit_queueless : after (fun t => (t.rsp_reg, t.ports.tx, t.regs.second_byte, t.regs.out_val.getD 3 0))
    (exec (.submit 0x03 0x41) (st 0)) = some (some ⟨.ok, 0⟩, some 0x03, 0x41, 0x41) := by decide                -- S1
theorem test_submit_full : after (fun t => (t.rsp_reg, t.regs)) (exec (.submit 0x06 0x66) fullRing) =
    some (some ⟨.fail, 2⟩, fullRing.regs) := by decide                                                          -- P1 step 7

theorem test_register : after (fun t => (t.rsp_reg, t.regs.desc_type.getD 5 0, t.regs.desc_cb.getD 5 true))
    (exec (.register 5 4 false) (st 0)) = some (some ⟨.ok, 0⟩, 4, false) := by decide                           -- RG3
theorem test_register_cause_order : after (·.rsp_reg) (exec (.register 8 10 false) (st 0)) = some (some ⟨.illegal, 4⟩) := by decide  -- RG25

theorem test_setCallback : after (fun t => t.regs.desc_cb.getD 5 false) (exec (.setCallback 5 true) (st 0)) = some true := by decide -- RG7
theorem test_getInput : after (·.rsp_reg) (exec (.getInput 5) { st 0 with regs := { (st 0).regs with in_val := (st 0).regs.in_val.set 5 0x0A } }) =
    some (some ⟨.ok, 0x000A⟩) := by decide                                                                      -- RG11
theorem test_getInput_range : after (·.rsp_reg) (exec (.getInput 8) (st 0)) = some (some ⟨.illegal, 4⟩) := by decide                 -- RG17
theorem test_getOutput : after (·.rsp_reg) (exec (.getOutput 3) { st 0 with regs := { (st 0).regs with out_val := (st 0).regs.out_val.set 3 0x41 } }) =
    some (some ⟨.ok, 0x0041⟩) := by decide                                                                      -- RG12
theorem test_getDesc : after (·.rsp_reg) (exec (.getDesc 5) (unit5 true (st 0))) = some (some ⟨.ok, 0x0014⟩) := by decide            -- RG7
theorem test_eventGet : after (·.rsp_reg) (exec (.eventGet 5) { st 0 with regs := { (st 0).regs with event_word := 0x20 } }) =
    some (some ⟨.ok, 1⟩) := by decide                                                                           -- RG13
theorem test_eventClear : after (·.regs.event_word) (exec (.eventClear 5) { st 0 with regs := { (st 0).regs with event_word := 0x24 } }) =
    some 0x04 := by decide                                                                                      -- RG14
theorem test_eventClearAll : after (·.regs.event_word) (exec .eventClearAll { st 0 with regs := { (st 0).regs with event_word := 0x24 } }) =
    some 0 := by decide                                                                                         -- RG15
theorem test_status_reset : after (·.rsp_reg) (exec .status (st 4)) = some (some ⟨.ok, 0x0440⟩) := by decide   -- Q9
theorem test_status_busy : after (·.rsp_reg) (exec .status (sending 3 0x42 (st 0))) = some (some ⟨.ok, 0x0038⟩) := by decide         -- Scenario B, cycle 7
theorem test_reservedB : after (fun t => (t.rsp_reg, t.regs)) (exec .reservedB (st 0)) = some (some ⟨.illegal, 3⟩, (st 0).regs) := by decide -- Z1
theorem test_reservedC : after (·.rsp_reg) (exec .reservedC (st 0)) = some (some ⟨.illegal, 3⟩) := by decide   -- Z2
theorem test_reservedD : after (·.rsp_reg) (exec .reservedD (st 0)) = some (some ⟨.illegal, 3⟩) := by decide   -- R252
theorem test_reservedE : after (·.rsp_reg) (exec .reservedE (st 0)) = some (some ⟨.illegal, 3⟩) := by decide   -- R252
theorem test_reservedF : after (·.rsp_reg) (exec .reservedF (st 0)) = some (some ⟨.illegal, 3⟩) := by decide   -- Z3

/-! ## Events -/

/-- The tail wraps from slot 3 to slot 0 (P1, step 5). -/
theorem test_enqueue_wraps : after (fun t => (t.regs.rb_tail, t.regs.rb_free, t.regs.rb_mem)) (enqueue 0x0444
    { st 4 with regs := { (st 4).regs with rb_mem := [0x0111, 0x0222, 0x0333, 0], rb_head := 1, rb_tail := 3, rb_free := 2 } }) =
    some (0, 1, [0x0111, 0x0222, 0x0333, 0x0444]) := by decide
theorem test_dequeue_oldest : after (fun r => (r.1, r.2.regs.rb_head, r.2.regs.rb_free)) (dequeue fullRing) = some (0x0222, 2, 1) := by decide -- P1, step 8
theorem test_txe_first : after (fun t => (t.ports.tx, t.regs.second_byte, t.regs.mid_pair, t.regs.rb_free)) (step (queued 0x0341 (st 4))) =
    some (some 0x03, 0x41, true, 4) := by decide                                                                -- T3
theorem test_txe_second_idle : after (fun t => (t.ports.wire, t.ports.tx, t.regs.tx_int_en)) (step (given drainIn (sending 0x03 0x41 (st 4)))) =
    some (some 0x03, some 0x41, false) := by decide                                                             -- T4
theorem test_txe_second_more : after (fun t => (t.ports.tx, t.regs.tx_int_en)) (step (given drainIn (queued 0x0452 (sending 0x03 0x41 (st 4))))) =
    some (some 0x41, true) := by decide                                                                         -- T5
theorem test_submit_beside_txe : after (fun t => (t.rsp_reg, t.ports.wire, t.ports.tx))
    (step (given { drainIn with cmd := some 0x100342 } (sending 0x03 0x41 (st 0)))) = some (some ⟨.fail, 1⟩, some 0x03, some 0x41) := by decide -- S4
theorem test_rx_unit : after (fun t => (t.regs.rx_state, t.regs.pending_unit, t.regs.wdt_armed)) (step (given (rx 0x05) (st 0))) =
    some (0b01, 0x05, true) := by decide                                                                        -- X1
theorem test_rx_parity : after (·.regs.rx_state) (rxc 0x05 (rxErr ⟨0x05, false, true⟩) (st 0)) = some 0b10 := by decide              -- X3
theorem test_dispatch_notifies : after (fun t => (t.cb_reg, t.regs.in_val.getD 5 0, t.regs.event_word))
    (step (given { rx 0x0A with cmd := some 0x300501 } (awaiting 0x45 (unit5 false (st 0))))) = some (some ⟨0x45, 0x0A⟩, 0x0A, 0x20) := by decide -- DP5
theorem test_dispatch_no_alias : after (fun t => (t.regs.in_val, t.regs.event_word)) (step (given (rx 0x99) (awaiting 0x48
    { st 0 with regs := { (st 0).regs with desc_type := (st 0).regs.desc_type.set 0 1 } }))) = some (List.replicate 8 0, 0) := by decide -- DP4
theorem test_clear_race : after (fun t => (t.rsp_reg, t.regs.event_word))
    (step (given { rx 0x0A with cmd := some 0x800500 } (awaiting 0x05 (unit5 false (st 0))))) = some (some ⟨.ok, 0⟩, 0x20) := by decide -- CR1
theorem test_tick_expires : after (fun t => (t.regs.rx_state, t.regs.wdt_armed, t.regs.wdt_count))
    (step (given tickIn { awaiting 0x05 (st 0) with regs := { (awaiting 0x05 (st 0)).regs with wdt_count := 2 } })) = some (0, false, 0) := by decide -- W3
theorem test_byte_beats_tick : after (fun t => (t.regs.event_word, t.regs.wdt_armed, t.ports.drops)) (step (given { rx 0x0A with tick := true }
    { awaiting 0x05 (unit5 false (st 0)) with regs := { (awaiting 0x05 (unit5 false (st 0))).regs with wdt_count := 2 } })) =
    some (0x20, false, []) := by decide                                                                         -- W5
theorem test_txe_beside_submit : after (fun t => (t.regs.thr_byte, t.regs.second_byte, t.regs.mid_pair, t.regs.rb_free))
    (step (given (cmd 0x100222) (queued 0x0111 (st 4)))) = some (0x01, 0x11, true, 3) := by decide             -- Q2, at capacity 4
theorem test_reset_ignores : after (fun t => (t.regs, t.rsp_reg, t.ports)) (step (given { cmd 0x100341 with rst := true } (sending 3 0x41 (st 0)))) =
    some (Regs.reset (params 0), none, Ports.quiet) := by decide                                                -- RS3
theorem test_fetched_word_runs : after (·.rsp_reg) (step (State.reset.withFetchWord 24 0xA00000)) = some (some ⟨.ok, 0⟩) := by decide -- RG16

/-! ## Witnesses: the hypotheses of each statement can be met together -/

theorem st_inv0 : Inv (st 0) := inv_iff.mpr ⟨paramsLegal_iff.mp (by decide), by decide⟩
theorem st_inv4 : Inv (st 4) := inv_iff.mpr ⟨paramsLegal_iff.mp (by decide), by decide⟩
theorem sending_inv0 : Inv (sending 3 0x41 (st 0)) := inv_iff.mpr ⟨paramsLegal_iff.mp (by decide), by decide⟩
theorem queued_inv : Inv (queued 0x0341 (st 4)) := inv_iff.mpr ⟨paramsLegal_iff.mp (by decide), by decide⟩
theorem fullRing_inv : Inv fullRing := inv_iff.mpr ⟨paramsLegal_iff.mp (by decide), by decide⟩

/-- The largest and the smallest legal instance. -/
theorem legal_bounds : LegalParams ⟨254, 64, false, false, 0, 65535⟩ ∧ LegalParams ⟨0, 1, true, true, 0, 1⟩ :=
  ⟨paramsLegal_iff.mp (by decide), paramsLegal_iff.mp (by decide)⟩

theorem goes {r : Result State} (h : (after (fun _ => ()) r).isSome = true) : ∃ t, r = .next t := by
  cases r with
  | next t => exact ⟨t, rfl⟩
  | fault f => cases h
  | refused q => cases h

theorem witness_DecodeEncodeAgree : (Instr.register 0 0 false).wellFormed = true ∧ (Instr.register 63 15 true).wellFormed = true := by decide

theorem witness_IgnoredBits_same : ∃ w w' : CmdWord, w ≠ w' ∧ w.extractLsb' 20 4 = w'.extractLsb' 20 4 ∧ w.extractLsb' 20 4 = 2#4 ∧
    w.extractLsb' 16 4 = w'.extractLsb' 16 4 ∧ w.extractLsb' 8 6 = w'.extractLsb' 8 6 ∧ w.getLsbD 0 = w'.getLsbD 0 :=
  ⟨0x240500, 0x24C5FE, by decide⟩
theorem witness_IgnoredBits_submit : ∃ w w' : CmdWord, w ≠ w' ∧ w.extractLsb' 20 4 = 1#4 ∧ w'.extractLsb' 20 4 = 1#4 ∧
    w.extractLsb' 0 16 = w'.extractLsb' 0 16 := ⟨0x100341, 0x1F0341, by decide⟩
/-- Index 8 is the first out of range of eight units, 7 the last in range. -/
theorem witness_IgnoredBits_illegal : (∃ t, exec (decode 0x400800) (st 0) = .next t) ∧ (∃ t, exec (decode 0x400700) (st 0) = .next t) ∧
    (∃ t, exec (decode 0x2A0700) (st 0) = .next t) ∧ (∃ t, exec (decode 0xB00000) (st 0) = .next t) :=
  ⟨exec_goes st_inv0 _, exec_goes st_inv0 _, exec_goes st_inv0 _, exec_goes st_inv0 _⟩

theorem witness_StepRuns : Inv (given (cmd 0xA00000) (st 0)) ∧ (given (cmd 0xA00000) (st 0)).inputs = [cmd 0xA00000] ∧
    (cmd 0xA00000).rst = false ∧ (cmd 0xA00000).cmd = some 0xA00000 := ⟨st_inv0.congr rfl rfl, rfl, rfl, rfl⟩
theorem witness_StepRuns_alone : Inv (st 0) ∧ (st 0).regs.tx_int_en = false ∧ decodeTableWord 24 0x1FFFFF = some (.submit 0xFF 0xFF) :=
  ⟨st_inv0, rfl, rfl⟩
theorem witness_StepRuns_busy : Inv (sending 3 0x41 (st 0)) ∧ (sending 3 0x41 (st 0)).regs.thr_full = true ∧ decodeTableWord 24 0 = some .nop :=
  ⟨sending_inv0, rfl, rfl⟩

/-- Values at and beside the edges of every range of R12. -/
theorem witness_IllegalParameters : paramsLegal ⟨254, 64, true, true, 0, 65535⟩ = true ∧ paramsLegal ⟨0, 1, true, true, 0, 1⟩ = true ∧
    paramsLegal ⟨256, 64, true, true, 0, 1⟩ = false ∧ paramsLegal ⟨3, 64, true, true, 0, 1⟩ = false ∧ paramsLegal ⟨2, 65, true, true, 0, 1⟩ = false ∧
    paramsLegal ⟨2, 0, true, true, 0, 1⟩ = false ∧ paramsLegal ⟨2, 1, true, true, 0, 0⟩ = false ∧ paramsLegal ⟨2, 1, true, true, 0, 65536⟩ = false := by decide

/-- A state that breaks R63. -/
def broken : State := { st 0 with regs := { (st 0).regs with rx_state := 0b11 } }
theorem witness_BrokenInvariant : LegalParams broken.params ∧ (nextInput broken).rst = false ∧ ¬ Inv broken :=
  ⟨st_inv0.legal, rfl, fun h => h.rx_used rfl⟩
theorem witness_BrokenInvariant_none : LegalParams (st 4).params ∧ (nextInput (st 4)).rst = false ∧ Inv (st 4) := ⟨st_inv4.legal, rfl, st_inv4⟩

def resetIn : CycleInput := { rst := true, drain := true, cmd := some 0x100341, rx := some ⟨0x0A, false, false⟩, tick := true }
theorem witness_ResetCycle : LegalParams (given resetIn broken).params ∧ (given resetIn broken).inputs = resetIn :: [] ∧ resetIn.rst = true :=
  ⟨st_inv0.legal, rfl, rfl⟩

theorem witness_step : Inv (sending 3 0x41 (st 0)) ∧ ∃ t, step (sending 3 0x41 (st 0)) = .next t := ⟨sending_inv0, goes (by decide)⟩
theorem witness_reachable : LegalParams (params 4) ∧ ∃ t, Host.Core.run Sys2Proof.core 1 (State.resetOf (params 4) [cmd 0x100341]) = .next t := by
  obtain ⟨t, h⟩ := goes (r := step (State.resetOf (params 4) [cmd 0x100341])) (by decide)
  exact ⟨st_inv4.legal, t, by rw [run_succ_next h, run_zero]⟩
theorem witness_StoredTypes : TypesLegal (unit5 true (st 0)) ∧ ∃ t, step (unit5 true (st 0)) = .next t :=
  ⟨fun t ht => by revert t; decide, goes (by decide)⟩
theorem witness_Relaxed_events : Inv (queued 0x0341 (st 4)) ∧ eventEnabled .txe (queued 0x0341 (st 4)) = true ∧
    eventEnabled (.host 0xA00000) (queued 0x0341 (st 4)) = true ∧ eventEnabled .tick (queued 0x0341 (st 4)) = true := ⟨queued_inv, by decide⟩
theorem witness_Relaxed_drain : Inv (sending 3 0x41 (st 0)) ∧ eventEnabled .drain (sending 3 0x41 (st 0)) = true := ⟨sending_inv0, by decide⟩

theorem witness_EveryCommand : after (·.rsp_reg.map (·.code)) (exec (.submit 3 0x41) (st 0)) = some (some .ok) ∧
    after (·.rsp_reg.map (·.code)) (exec (.submit 3 0x41) (sending 3 0x41 (st 0))) = some (some .fail) ∧
    after (·.rsp_reg.map (·.code)) (exec (.getDesc 8) (st 0)) = some (some .illegal) := by decide
theorem witness_Events : (∃ t, txe (queued 0x0341 (st 4)) = .next t) ∧ (∃ t, rxc 0x0A false (awaiting 0x05 (unit5 true (st 0))) = .next t) ∧
    (∃ t, tick (awaiting 0x05 (st 0)) = .next t) := ⟨goes (by decide), goes (by decide), goes (by decide)⟩

theorem two_steps {s : State} (h : (after (fun _ => ()) (andThen (step s) step)).isSome = true) : ∃ t t2, step s = .next t ∧ step t = .next t2 := by
  obtain ⟨t2, h⟩ := goes h
  obtain ⟨t, h1, h2⟩ := andThen_eq_next.mp h
  exact ⟨t, t2, h1, h2⟩
theorem witness_OutputsLater : ∃ t t2, step (given (cmd 0xA00000) (st 0)) = .next t ∧ step t = .next t2 := two_steps (by decide)
theorem witness_OutputsLater_reset : ∃ t t2, step { st 0 with inputs := [cmd 0xA00000, resetIn] } = .next t ∧ step t = .next t2 ∧ (nextInput t).rst = true := by
  obtain ⟨t, t2, h1, h2⟩ := two_steps (s := { st 0 with inputs := [cmd 0xA00000, resetIn] }) (by decide)
  refine ⟨t, t2, h1, h2, ?_⟩
  have h := congrArg (after fun t => (nextInput t).rst) h1
  simp only [after] at h
  rw [← Option.some.injEq, ← h]
  decide
theorem witness_ResponseIgnores : ∃ c c' t t', c ≠ c' ∧ c'.rst = c.rst ∧ c'.drain = c.drain ∧ c'.cmd = c.cmd ∧
    step { awaiting 0x05 (unit5 true (st 0)) with inputs := c :: [] } = .next t ∧
    step { awaiting 0x05 (unit5 true (st 0)) with inputs := c' :: [] } = .next t' := by
  obtain ⟨t, h⟩ := goes (r := step { awaiting 0x05 (unit5 true (st 0)) with inputs := [cmd 0x400500] }) (by decide)
  obtain ⟨t', h'⟩ := goes (r := step { awaiting 0x05 (unit5 true (st 0)) with inputs := [{ rx 0x0A with cmd := some 0x400500, tick := true }] }) (by decide)
  exact ⟨cmd 0x400500, { rx 0x0A with cmd := some 0x400500, tick := true }, t, t', by decide, rfl, rfl, rfl, h, h'⟩

/-- Busy by THR alone (Scenario B, cycle 4), busy by both, and free. -/
theorem witness_SubmitQueueless : (st 0).params.rbCapacity = 0 ∧ (st 0).regs.out_val.length = (st 0).params.numUnits ∧
    (st 0).regs.thr_full = false ∧ (st 0).regs.tx_int_en = false ∧ (sending 3 0x41 (st 0)).regs.tx_int_en = true ∧
    (sending 3 0x41 (st 0)).regs.out_val.length = (sending 3 0x41 (st 0)).params.numUnits := by decide
/-- Full; and with free slots and the tail at the last slot, from which it wraps. -/
theorem witness_SubmitBuffered : 0 < fullRing.params.rbCapacity ∧ Sized fullRing ∧ fullRing.regs.rb_tail.toNat < fullRing.params.rbCapacity ∧
    fullRing.regs.rb_free = 0 := ⟨by decide, fullRing_inv.sized, by decide, by decide⟩
def tailAt3 : State := { st 4 with regs := { (st 4).regs with rb_head := 1, rb_tail := 3, rb_free := 2, tx_int_en := true } }
theorem witness_SubmitBuffered_wraps : 0 < tailAt3.params.rbCapacity ∧ Sized tailAt3 ∧ tailAt3.regs.rb_tail.toNat < tailAt3.params.rbCapacity ∧
    tailAt3.regs.rb_free ≠ 0 := ⟨by decide, ⟨rfl, rfl, rfl, rfl, rfl⟩, by decide, by decide⟩
/-- Unit 7 is the last with a stored output value, 8 the first without. -/
theorem witness_AcceptedSubmit : after (·.rsp_reg) (exec (.submit 0xC7 0x10) (st 0)) = some (some ⟨.ok, 0⟩) ∧
    after (·.rsp_reg) (exec (.submit 0x08 0x41) (st 0)) = some (some ⟨.ok, 0⟩) ∧
    after (·.rsp_reg) (exec (.submit 0x07 0x41) fullRing) = some (some ⟨.fail, 2⟩) := by decide
theorem witness_SubmitBesideTxe : Inv (given { drainIn with cmd := some 0x100342 } (sending 3 0x41 (st 0))) ∧
    decode 0x100342 = .submit 3 0x42 ∧ (sending 3 0x41 (st 0)).params.rbCapacity = 0 ∧ (sending 3 0x41 (st 0)).regs.tx_int_en = true ∧
    ∃ t, step (given { drainIn with cmd := some 0x100342 } (sending 3 0x41 (st 0))) = .next t :=
  ⟨sending_inv0.congr rfl rfl, by decide, rfl, rfl, goes (by decide)⟩

def pendingEmpty (cap : Nat) : State := drain (sending 3 0x41 (st cap))
theorem witness_TxeQueueless : (pendingEmpty 0).params.rbCapacity = 0 ∧ (pendingEmpty 0).regs.thr_full = false ∧ (pendingEmpty 0).regs.mid_pair = true ∧
    (st 0).regs.thr_full = false ∧ (st 0).regs.mid_pair = false := by decide
theorem witness_TxeBuffered : (queued 0x0341 (st 4)).regs.rb_mem[(queued 0x0341 (st 4)).regs.rb_head.toNat]? = some 0x0341 ∧
    (queued 0x0341 (st 4)).regs.thr_full = false ∧ (queued 0x0341 (st 4)).regs.mid_pair = false ∧
    (queued 0x0341 (st 4)).regs.rb_free.toNat < (queued 0x0341 (st 4)).params.rbCapacity := by decide
theorem witness_TxeBuffered_others : (st 4).regs.rb_mem[(st 4).regs.rb_head.toNat]? = some 0 ∧ (st 4).regs.thr_full = false ∧
    (st 4).regs.mid_pair = false ∧ (st 4).regs.rb_free.toNat = (st 4).params.rbCapacity ∧ (pendingEmpty 4).regs.mid_pair = true ∧
    (pendingEmpty 4).regs.thr_full = false ∧ (pendingEmpty 4).regs.rb_mem[(pendingEmpty 4).regs.rb_head.toNat]? = some 0 := by decide
/-- TXE fires: buffered beside a SUBMIT, and queueless, by the cycle's DRAIN, beside a NOP. -/
theorem witness_TxeFires : Inv (given (cmd 0x100342) (queued 0x0341 (st 4))) ∧ txeFires (given (cmd 0x100342) (queued 0x0341 (st 4))) ∧
    0 < (st 4).params.rbCapacity ∧ ∃ t, step (given (cmd 0x100342) (queued 0x0341 (st 4))) = .next t :=
  ⟨queued_inv.congr rfl rfl, ⟨rfl, .inl rfl⟩, by decide, goes (by decide)⟩
theorem witness_TxeFires_queueless : Inv (given { drainIn with cmd := some 0x000000 } (sending 3 0x41 (st 0))) ∧
    txeFires (given { drainIn with cmd := some 0x000000 } (sending 3 0x41 (st 0))) ∧
    (∀ w u d, (nextInput (given { drainIn with cmd := some 0x000000 } (sending 3 0x41 (st 0)))).cmd = some w → decode w ≠ .submit u d) ∧
    ∃ t, step (given { drainIn with cmd := some 0x000000 } (sending 3 0x41 (st 0))) = .next t := by
  refine ⟨sending_inv0.congr rfl rfl, ⟨rfl, .inr rfl⟩, fun w u d h => ?_, goes (by decide)⟩
  cases h
  intro hd
  cases hd
/-- TXE does not fire: the engine is idle, beside an accepted SUBMIT; and THR is full and not drained. -/
theorem witness_TxeRests : Inv (given (cmd 0x100341) (st 0)) ∧ ¬ txeFires (given (cmd 0x100341) (st 0)) ∧
    Inv (sending 3 0x41 (st 0)) ∧ ¬ txeFires (sending 3 0x41 (st 0)) ∧ ∃ t, step (given (cmd 0x100341) (st 0)) = .next t :=
  ⟨st_inv0.congr rfl rfl, (nomatch ·.1), sending_inv0, fun h => h.2.elim (nomatch ·) (nomatch ·), goes (by decide)⟩
theorem witness_Drained : Inv (given drainIn (sending 3 0x41 (st 0))) ∧ (nextInput (given drainIn (sending 3 0x41 (st 0)))).drain = true ∧
    (sending 3 0x41 (st 0)).regs.thr_full = true ∧ (sending 3 0x41 (st 0)).regs.mid_pair = true ∧
    ∃ t, step (given drainIn (sending 3 0x41 (st 0))) = .next t := ⟨sending_inv0.congr rfl rfl, rfl, rfl, rfl, goes (by decide)⟩
theorem witness_Wire : NoReset 3 (State.resetOf (params 0) [cmd 0x100341, drainIn, drainIn]) := by
  intro c hc
  simp only [State.resetOf, List.take, List.mem_cons, List.not_mem_nil, or_false] at hc
  rcases hc with rfl | rfl | rfl <;> rfl
theorem witness_Wire_run : Inv (given drainIn (sending 3 0x41 (st 0))) ∧ NoReset 1 (given drainIn (sending 3 0x41 (st 0))) ∧
    ∃ t, Host.Core.run Sys2Proof.core 1 (given drainIn (sending 3 0x41 (st 0))) = .next t := by
  obtain ⟨t, h⟩ := goes (r := step (given drainIn (sending 3 0x41 (st 0)))) (by decide)
  refine ⟨sending_inv0.congr rfl rfl, fun c hc => ?_, t, by rw [run_succ_next h, run_zero]⟩
  simp only [given, List.take, List.mem_cons, List.not_mem_nil, or_false] at hc
  rw [hc]; rfl
theorem witness_Ring : Inv (queued 0x0341 (st 4)) ∧ 0 < (queued 0x0341 (st 4)).params.rbCapacity ∧
    [(0x0111 : Word16), 0x0222, 0x0333].length ≤ (queued 0x0341 (st 4)).regs.rb_free.toNat := ⟨queued_inv, by decide, by decide⟩
theorem witness_Ring_interleaved : after (·.1) (runRing [.deq, .enq 0x0111, .enq 0x0222, .deq] (queued 0x0341 (st 4))) = some [0x0341, 0x0111] := by decide

theorem witness_Rxc : (st 0).regs.rx_state = 0b00#2 ∧ (awaiting 5 (st 0)).regs.rx_state = 0b01#2 ∧ broken.regs.rx_state = 0b11#2 := by decide
theorem witness_Rxc_resync : after (·.regs.rx_state) (rxc 0x05 true (st 0)) = some 0b10#2 := by decide
/-- Unit 7, the last in range, Undefined; unit 8, the first out of range; unit 5, registered with and without a callback. -/
theorem witness_RxcCompletes : Sized (awaiting 0x07 (st 0)) ∧ (awaiting 0x07 (st 0)).regs.desc_type[(0x07#8 |>.extractLsb' 0 6).toNat]? = some 0 ∧
    (awaiting 0x08 (st 0)).params.numUnits ≤ ((awaiting 0x08 (st 0)).regs.pending_unit.extractLsb' 0 6).toNat ∧
    (unit5 true (st 0)).regs.desc_type[5]? = some 4 ∧ (unit5 true (st 0)).regs.desc_cb[5]? = some true ∧ (unit5 false (st 0)).regs.desc_cb[5]? = some false :=
  ⟨⟨rfl, rfl, rfl, rfl, rfl⟩, by decide⟩
/-- Count 0 counts, count 2 = WDT_TICKS - 1 expires. -/
theorem witness_Tick : (st 0).regs.wdt_armed = false ∧ (awaiting 5 (st 0)).regs.wdt_armed = true ∧
    (awaiting 5 (st 0)).regs.wdt_count.toNat + 1 < (awaiting 5 (st 0)).params.wdtTicks ∧ (2 : BitVec 16).toNat + 1 = (params 0).wdtTicks := by decide

def awaiting5 : State := awaiting 0x05 (unit5 true (st 0))
theorem awaiting5_inv : Inv awaiting5 := inv_iff.mpr ⟨paramsLegal_iff.mp (by decide), by decide⟩
theorem witness_ByteBeforeTick : Inv (given { rx 0x0A with tick := true } awaiting5) ∧ awaiting5.regs.rx_state = 0b01#2 ∧
    ∃ t, step (given { rx 0x0A with tick := true } awaiting5) = .next t := ⟨awaiting5_inv.congr rfl rfl, rfl, goes (by decide)⟩
theorem witness_ByteBeforeTick_first : Inv (given { rx 0x05 with tick := true } (st 0)) ∧ (st 0).regs.rx_state = 0b00#2 ∧ 1 < (st 0).params.wdtTicks ∧
    ∃ t, step (given { rx 0x05 with tick := true } (st 0)) = .next t := ⟨st_inv0.congr rfl rfl, rfl, by decide, goes (by decide)⟩
def oneTick : State := State.resetOf ⟨0, 8, true, true, 1000000, 1⟩ []
theorem witness_ByteBeforeTick_one : Inv (given { rx 0x05 with tick := true } oneTick) ∧ oneTick.params.wdtTicks = 1 ∧ oneTick.regs.rx_state = 0b00#2 ∧
    ∃ t, step (given { rx 0x05 with tick := true } oneTick) = .next t :=
  ⟨inv_iff.mpr ⟨paramsLegal_iff.mp (by decide), by decide⟩, rfl, rfl, goes (by decide)⟩
theorem witness_Watchdog : Inv { awaiting5 with inputs := [tickIn, tickIn, tickIn] } ∧ awaiting5.regs.wdt_armed = true ∧
    awaiting5.regs.wdt_count.toNat + [tickIn, tickIn, tickIn].length = awaiting5.params.wdtTicks ∧
    ∀ c ∈ [tickIn, tickIn, tickIn], c.rst = false ∧ c.rx = none ∧ c.tick = true := by
  refine ⟨awaiting5_inv.congr rfl rfl, rfl, rfl, fun c hc => ?_⟩
  simp only [List.mem_cons, List.not_mem_nil, or_false, or_self] at hc
  subst hc
  exact ⟨rfl, rfl, rfl⟩
/-- The first and the last of those three cycles. -/
theorem witness_Watchdog_cycles : (∃ y, step { awaiting5 with inputs := [tickIn, tickIn, tickIn] } = .next y) ∧
    ∃ x y, Host.Core.run Sys2Proof.core 2 { awaiting5 with inputs := [tickIn, tickIn, tickIn] } = .next x ∧ step x = .next y := by
  obtain ⟨y, h⟩ := goes (r := andThen (step { awaiting5 with inputs := [tickIn, tickIn, tickIn] }) fun a => andThen (step a) step) (by decide)
  obtain ⟨x1, h1, h⟩ := andThen_eq_next.mp h
  obtain ⟨x2, h2, h3⟩ := andThen_eq_next.mp h
  exact ⟨⟨x1, h1⟩, x2, y, by rw [run_succ_next h1, run_succ_next h2, run_zero], h3⟩
theorem witness_EventBit_rises : Inv (given (rx 0x0A) awaiting5) ∧ awaiting5.regs.event_word.getLsbD 5 = false ∧
    after (·.regs.event_word.getLsbD 5) (step (given (rx 0x0A) awaiting5)) = some true := ⟨awaiting5_inv.congr rfl rfl, by decide, by decide⟩
def event5 : State := { unit5 true (st 0) with regs := { (unit5 true (st 0)).regs with event_word := 0x20 } }
theorem event5_inv : Inv event5 := inv_iff.mpr ⟨paramsLegal_iff.mp (by decide), by decide⟩
theorem witness_EventBit_falls : Inv (given (cmd 0x800500) event5) ∧ event5.regs.event_word.getLsbD 5 = true ∧
    after (·.regs.event_word.getLsbD 5) (step (given (cmd 0x800500) event5)) = some false := ⟨event5_inv.congr rfl rfl, by decide, by decide⟩
theorem witness_Notification : Inv (given (rx 0x0A) awaiting5) ∧ (nextInput (given (rx 0x0A) awaiting5)).rst = false ∧
    after (·.cb_reg) (step (given (rx 0x0A) awaiting5)) = some (some ⟨0x05, 0x0A⟩) := ⟨awaiting5_inv.congr rfl rfl, rfl, by decide⟩
/-- The two states differ in second_byte, which no pending byte makes meaningful. -/
theorem witness_Unread : Inv (st 0) ∧ Inv { st 0 with regs := { (st 0).regs with second_byte := 0x42 } } ∧
    SameButUnread (st 0) { st 0 with regs := { (st 0).regs with second_byte := 0x42 } } ∧ ∃ t, step (st 0) = .next t :=
  ⟨st_inv0, inv_iff.mpr ⟨paramsLegal_iff.mp (by decide), by decide⟩,
    ⟨rfl, rfl, rfl, rfl, rfl, rfl, rfl, rfl, rfl, rfl, rfl, rfl, rfl, rfl, rfl, rfl, rfl, rfl, rfl, fun h => (by cases h), fun h => (by cases h), fun h => (by cases h)⟩,
    goes (by decide)⟩

/-- Index 8 is out of range, 7 in range; types 9 and 10 lie on the two sides of R243's edge; Ack is absent without the flag. -/
theorem witness_Register : Sized (st 0) ∧ (st 0).params.numUnits ≤ (8 : Byte).toNat ∧ (7 : Byte).toNat < (st 0).params.numUnits ∧
    10 ≤ (10 : BitVec 4).toNat ∧ (9 : BitVec 4).toNat < 10 ∧ (Params.hasAckUnit ⟨0, 8, false, false, 0, 1⟩ = false) :=
  ⟨st_inv0.sized, by decide⟩
theorem witness_indexed : Sized (st 0) ∧ (st 0).params.numUnits ≤ 64 ∧ (st 0).params.numUnits ≤ (8 : Byte).toNat ∧
    (7 : Byte).toNat < (st 0).params.numUnits := ⟨st_inv0.sized, by decide⟩
theorem witness_Status_queueless : (st 0).params.rbCapacity = 0 ∧ (st 0).regs.rb_free.toNat ≤ (st 0).params.rbCapacity := by decide
theorem witness_Reads : ∃ t, exec (.eventGet 5) event5 = .next t := exec_goes event5_inv _
theorem witness_Registry : ∃ t, exec (.register 5 6 false) event5 = .next t := exec_goes event5_inv _
theorem witness_EventClear : ∃ s1 s2 s3, (5 : Byte).toNat < event5.params.numUnits ∧ exec (.eventClear 5) event5 = .next s1 ∧
    ReachesWithoutDispatch 5 s1 s2 ∧ exec (.eventGet 5) s2 = .next s3 := by
  obtain ⟨s1, h1⟩ := exec_goes event5_inv (.eventClear 5)
  have hi := inv_exec event5_inv h1
  obtain ⟨s2, h2⟩ := tick_goes hi
  obtain ⟨s3, h3⟩ := exec_goes (inv_tick hi h2) (.eventGet 5)
  refine ⟨s1, s2, s3, by decide, h1, Relation.ReflTransGen.single ⟨.tick, rfl, h2, ?_⟩, h3⟩
  rintro ⟨-, -, b, hb, -⟩
  cases hb
theorem witness_EventClear_clear : (st 0).regs.event_word.getLsbD 5 = false ∧ ∃ t, exec (.eventClear 5) (st 0) = .next t :=
  ⟨by decide, exec_goes st_inv0 _⟩

end Sys2Proof.Tests
end

section
/-! Every run keeps the parameters and the invariants (00_scope.md section 3, 10_state.md section 7), and what they say of
the states reached from reset. -/

namespace Sys2Proof.Machine

/-! ## The events of a cycle write no parameter (R7 to R11) -/

theorem params_txe {s t : State} (h : txe s = .next t) : t.params = s.params := by
  obtain ⟨-, -, rfl⟩ | ⟨-, -, -, -, e, -, rfl⟩ | ⟨-, -, -, rfl⟩ := txe_cases h <;> rfl

theorem params_dispatch {u d : Byte} {s t : State} (h : dispatch u d s = .next t) : t.params = s.params := by
  obtain ⟨-, rfl⟩ | ⟨-, -, -, cb, -, rfl⟩ := dispatch_eq_next.mp h <;> rfl

theorem params_rxc {b : Byte} {err : Bool} {s t : State} (h : rxc b err s = .next t) : t.params = s.params := by
  obtain ⟨-, -, rfl⟩ | ⟨-, -, rfl⟩ | ⟨-, -, rfl⟩ | ⟨-, rfl⟩ | ⟨-, -, h⟩ := rxc_cases h
  · rfl
  · rfl
  · rfl
  · rfl
  · exact (params_dispatch h).trans (disarmWdt_params _)

theorem params_tick {s t : State} (h : tick s = .next t) : t.params = s.params := by
  obtain ⟨-, rfl⟩ | ⟨-, -, rfl⟩ | ⟨-, -, rfl⟩ := tick_cases h <;> rfl

/-- No command writes a parameter: the writing commands by their inversion lemmas, the reading ones as responses. -/
theorem params_exec {i : Instr} {s t : State} (h : exec i s = .next t) : t.params = s.params := by
  cases hr : isRead i with
  | true =>
    obtain ⟨c, d, rfl⟩ := exec_read_cases hr h
    rfl
  | false =>
    cases i with
    | submit u d =>
      obtain (⟨-, -, rfl⟩ | ⟨-, -, rfl⟩) | ⟨-, -, -, -, rfl⟩ | ⟨-, -, -, -, rfl⟩ := execSubmit_cases h <;> rfl
    | register idx ty cb => obtain ⟨c, rfl, -⟩ | ⟨-, -, -, -, -, rfl⟩ := execRegister_cases h <;> rfl
    | setCallback idx cb => obtain ⟨-, rfl⟩ | ⟨-, -, rfl⟩ := execSetCallback_cases h <;> rfl
    | eventClear idx => obtain ⟨-, rfl⟩ | ⟨-, -, rfl⟩ := execEventClear_cases h <;> rfl
    | eventClearAll => cases h; rfl
    | _ => cases hr

/-! ## The phases of a cycle, and the cycle -/

theorem params_drainPhase (c : CycleInput) (s : State) : (drainPhase c s).params = s.params := by
  unfold drainPhase
  split <;> rfl

theorem params_txePhase {s t : State} (h : txePhase s = .next t) : t.params = s.params := by
  unfold txePhase at h
  split at h
  · exact params_txe h
  · cases h; rfl

theorem params_hostPhase {c : CycleInput} {s t : State} (h : hostPhase c s = .next t) : t.params = s.params := by
  unfold hostPhase at h
  split at h
  · exact params_exec h
  · cases h; rfl

theorem params_rxPhase {c : CycleInput} {s t : State} (h : rxPhase c s = .next t) : t.params = s.params := by
  unfold rxPhase at h
  split at h
  · exact params_rxc h
  · cases h; rfl

theorem params_tickPhase {c : CycleInput} {s t : State} (h : tickPhase c s = .next t) : t.params = s.params := by
  unfold tickPhase at h
  split at h
  · exact params_tick h
  · cases h; rfl

theorem params_step {s t : State} (h : step s = .next t) : t.params = s.params := by
  obtain ⟨-, ⟨-, rfl⟩ | ⟨-, -, s1, s2, s3, h1, h2, h3, h4⟩⟩ := step_eq_next.mp h
  · exact resetCycle_params s
  · calc t.params = s3.params := params_tickPhase h4
      _ = s2.params := params_rxPhase h3
      _ = s1.params := params_hostPhase h2
      _ = (drainPhase (nextInput s) (beginCycle s)).params := params_txePhase h1
      _ = s.params := params_drainPhase _ _

/-- A reset cycle establishes the invariants afresh; any other cycle keeps them phase by phase. -/
theorem inv_step {s t : State} (h : step s = .next t) : Inv t := by
  obtain ⟨hp, ⟨-, rfl⟩ | ⟨-, hi, s1, s2, s3, h1, h2, h3, h4⟩⟩ := step_eq_next.mp h
  · exact inv_resetOf hp _
  · have hi1 := inv_txePhase (inv_drainPhase (inv_beginCycle hi) _) h1
    exact inv_tickPhase (inv_rxPhase (inv_hostPhase hi1 h2) h3) h4

/-! ## Runs -/

/-- A property that every step keeps holds after any number of cycles. -/
theorem run_keeps {P : State → Prop} (keep : ∀ s t, P s → step s = .next t → P t) (k : Nat) {s t : State} (hs : P s)
    (h : Host.Core.run Sys2Proof.core k s = .next t) : P t := by
  induction k generalizing s with
  | zero =>
    rw [run_zero] at h
    cases h
    exact hs
  | succ k ih =>
    obtain ⟨s1, h1, h⟩ := run_succ_eq_next.mp h
    exact ih (keep s s1 hs h1) h

theorem run_keeps_inv {k : Nat} {s t : State} (hi : Inv s) (h : Host.Core.run Sys2Proof.core k s = .next t) : Inv t :=
  run_keeps (fun _ _ _ => inv_step) k hi h

theorem params_run {k : Nat} {s t : State} (h : Host.Core.run Sys2Proof.core k s = .next t) : t.params = s.params :=
  run_keeps (P := fun x => x.params = s.params) (fun _ _ hx hstep => (params_step hstep).trans hx) k rfl h

/-- R60's sum, from its bound. -/
theorem free_add_rbCount {s : State} (hi : Inv s) : s.regs.rb_free.toNat + rbCount s = s.params.rbCapacity :=
  Nat.add_sub_cancel' hi.free_le

/-- Settles O12: the reset state meets the invariants and every cycle keeps them and the parameters, so each of R60, R61, R63 and R64 is
read off `Inv` at the state reached. -/
theorem reachableStatesObeyInvariants : Obligations.ReachableStatesObeyInvariants := by
  intro p ins k t hp hrun
  have hi : Inv t := run_keeps_inv (inv_resetOf hp ins) hrun
  obtain rfl : t.params = p := params_run hrun
  exact ⟨⟨free_add_rbCount hi, hi.free_le⟩, hi.tail_eq, ⟨hi.rx_used, hi.armed_iff⟩, hi.count_zero, hi.count_lt⟩

end Sys2Proof.Machine
end

section
/-! The ring buffer is a queue (20_memory.md R90 to R92): every Enqueue appends and every Dequeue takes the oldest entry, whatever
their interleaving. -/

namespace Sys2Proof.Machine

/-! ## One use of the ring -/

/-- An Enqueue that completes appended its entry. -/
theorem queue_of_enqueue {e : Word16} {s t : State} (hr : RingOk s) (h : enqueue e s = .next t) :
    queue t = queue s ++ [e] ∧ RingOk t := by
  obtain ⟨-, hf, -⟩ := enqueue_eq_next.mp h
  obtain ⟨t', h', hq, hr', -⟩ := enqueue_spec hr hf e
  obtain rfl : t' = t := Host.Outcome.next.inj (h'.symm.trans h)
  exact ⟨hq, hr'⟩

/-- A Dequeue that completes took the oldest entry. -/
theorem queue_of_dequeue {e : Word16} {s t : State} (hr : RingOk s) (h : dequeue s = .next (e, t)) :
    queue s = e :: queue t ∧ RingOk t := by
  obtain ⟨-, hlt, -⟩ := dequeue_eq_next.mp h
  obtain ⟨e', t', h', hq, hr', -⟩ := dequeue_spec hr (Nat.sub_pos_of_lt hlt)
  obtain ⟨rfl, rfl⟩ : e' = e ∧ t' = t := Prod.mk.inj (Host.Outcome.next.inj (h'.symm.trans h))
  exact ⟨hq, hr'⟩

/-! ## Any number of uses -/

/-- R92 in every interleaving: what is stored and what goes in is what comes out and what stays. -/
theorem queue_append_putIn_of_runRing {ops : List RingOp} {s t : State} {outs : List Word16} (hr : RingOk s)
    (h : runRing ops s = .next (outs, t)) : queue s ++ putIn ops = outs ++ queue t := by
  induction ops generalizing s outs with
  | nil =>
    cases h
    exact List.append_nil _
  | cons op ops ih =>
    cases op with
    | enq e =>
      obtain ⟨s1, h1, h⟩ := andThen_eq_next.mp h
      obtain ⟨hq, hr1⟩ := queue_of_enqueue hr h1
      calc queue s ++ putIn (.enq e :: ops) = queue s1 ++ putIn ops := by simp [hq, putIn]
        _ = outs ++ queue t := ih hr1 h
    | deq =>
      obtain ⟨⟨e, s1⟩, h1, h⟩ := andThen_eq_next.mp h
      obtain ⟨⟨rest, t'⟩, h2, h⟩ := andThen_eq_next.mp h
      obtain ⟨rfl, rfl⟩ : e :: rest = outs ∧ t' = t := Prod.mk.inj (Host.Outcome.next.inj h)
      obtain ⟨hq, hr1⟩ := queue_of_dequeue hr h1
      calc queue s ++ putIn (.deq :: ops) = e :: (queue s1 ++ putIn ops) := by simp [hq, putIn]
        _ = e :: rest ++ queue t' := by rw [ih hr1 h2, List.cons_append]

/-- Entries up to the free slots all go in. -/
theorem runRing_enq_all {es : List Word16} {s : State} (hr : RingOk s) (hfit : es.length ≤ s.regs.rb_free.toNat) :
    ∃ t, queue t = queue s ++ es ∧ RingOk t ∧ ∀ ops, runRing (es.map .enq ++ ops) s = runRing ops t := by
  induction es generalizing s with
  | nil => exact ⟨s, (List.append_nil _).symm, hr, fun _ => rfl⟩
  | cons e es ih =>
    rw [List.length_cons] at hfit
    obtain ⟨s1, h1, hq, hr1, -, hfree, -⟩ := enqueue_spec hr (by omega) e
    obtain ⟨t, hqt, hrt, hrun⟩ := ih hr1 (by omega)
    refine ⟨t, by simp [hqt, hq], hrt, fun ops => ?_⟩
    calc runRing (.enq e :: (es.map .enq ++ ops)) s = andThen (enqueue e s) (runRing (es.map .enq ++ ops)) := rfl
      _ = runRing ops t := by rw [h1, andThen_next, hrun]

/-- As many Dequeues as there are entries take them all, in order. -/
theorem runRing_deq_all {n : Nat} {s : State} (hr : RingOk s) (hn : rbCount s = n) :
    ∃ t, runRing (List.replicate n .deq) s = .next (queue s, t) ∧ rbCount t = 0 := by
  induction n generalizing s with
  | zero => exact ⟨s, by rw [queue_eq_nil_iff.mpr hn]; rfl, hn⟩
  | succ n ih =>
    obtain ⟨e, s1, h1, hq, hr1, hcnt, -⟩ := dequeue_spec hr (by omega)
    obtain ⟨t, hrun, hz⟩ := ih hr1 (by omega)
    refine ⟨t, ?_, hz⟩
    simp [List.replicate_succ, runRing, h1, hrun, hq]

/-- Settles O30: R92 by induction on the uses of the ring; and filling it, then emptying it, one induction each. -/
theorem ringBufferIsFifo : Obligations.RingBufferIsFifo := by
  refine ⟨fun s t ops outs hi hc h => queue_append_putIn_of_runRing (hi.ringOk hc) h, fun s es hi hc hfit => ?_⟩
  obtain ⟨t, hq, hr, hfill⟩ := runRing_enq_all (hi.ringOk hc) hfit
  have hcnt : rbCount t = rbCount s + es.length := by rw [← length_queue, hq, List.length_append, length_queue]
  obtain ⟨t', hempty, hz⟩ := runRing_deq_all hr hcnt
  exact ⟨t', by rw [hfill, hempty, hq], hz⟩

end Sys2Proof.Machine
end

section
/-! What each part of a cycle leaves unchanged (10_state.md R50's column "written by"), as one equation per event between
two views of the state. -/

namespace Sys2Proof.Machine

/-- The bytes on their way to the wire with the ports that show them, and the inputs still to come. -/
structure TransmitView where
  rbCapacity  : Nat
  inputs      : List CycleInput
  thr_full    : Bool
  thr_byte    : Byte
  mid_pair    : Bool
  second_byte : Byte
  rb_mem      : List Word16
  rb_head     : BitVec 8
  rb_free     : BitVec 8
  tx          : Option Byte
  wire        : Option Byte

/-- What `inThr`, `inFlight` and the two transmit ports are read from. -/
def transmitView (s : State) : TransmitView where
  rbCapacity  := s.params.rbCapacity
  inputs      := s.inputs
  thr_full    := s.regs.thr_full
  thr_byte    := s.regs.thr_byte
  mid_pair    := s.regs.mid_pair
  second_byte := s.regs.second_byte
  rb_mem      := s.regs.rb_mem
  rb_head     := s.regs.rb_head
  rb_free     := s.regs.rb_free
  tx          := s.ports.tx
  wire        := s.ports.wire

/-- The pair being received and what a dispatch of it reads and writes, and the inputs still to come. -/
structure ReceiveView where
  numUnits     : Nat
  inputs       : List CycleInput
  rx_state     : BitVec 2
  pending_unit : Byte
  desc_type    : List (BitVec 4)
  in_val       : List Byte
  event_word   : BitVec 64

/-- What RXC reads and a dispatch writes, the callback flag and the watchdog apart. -/
def receiveView (s : State) : ReceiveView where
  numUnits     := s.params.numUnits
  inputs       := s.inputs
  rx_state     := s.regs.rx_state
  pending_unit := s.regs.pending_unit
  desc_type    := s.regs.desc_type
  in_val       := s.regs.in_val
  event_word   := s.regs.event_word

/-! ## The transmit path keeps the receive view -/

theorem receiveView_txe {s t : State} (h : txe s = .next t) : receiveView t = receiveView s := by
  obtain ⟨-, -, rfl⟩ | ⟨-, -, -, -, e, -, rfl⟩ | ⟨-, -, -, rfl⟩ := txe_cases h <;> rfl

theorem receiveView_execSubmit {u d : Byte} {s t : State} (h : execSubmit u d s = .next t) : receiveView t = receiveView s := by
  obtain (⟨-, -, rfl⟩ | ⟨-, -, rfl⟩) | ⟨-, -, -, -, rfl⟩ | ⟨-, -, -, -, rfl⟩ := execSubmit_cases h <;> rfl

theorem receiveView_drainPhase (c : CycleInput) (s : State) : receiveView (drainPhase c s) = receiveView s := by
  unfold drainPhase
  split <;> rfl

theorem receiveView_txePhase {s t : State} (h : txePhase s = .next t) : receiveView t = receiveView s := by
  unfold txePhase at h
  split at h
  · exact receiveView_txe h
  · cases h; rfl

/-! ## The receive path keeps the transmit view, the response and the types -/

theorem transmitView_dispatch {u d : Byte} {s t : State} (h : dispatch u d s = .next t) :
    transmitView t = transmitView s ∧ t.rsp_reg = s.rsp_reg ∧ t.regs.desc_type = s.regs.desc_type := by
  obtain ⟨-, rfl⟩ | ⟨-, -, -, cb, -, rfl⟩ := dispatch_eq_next.mp h <;> exact ⟨rfl, rfl, rfl⟩

theorem transmitView_rxc {b : Byte} {err : Bool} {s t : State} (h : rxc b err s = .next t) :
    transmitView t = transmitView s ∧ t.rsp_reg = s.rsp_reg ∧ t.regs.desc_type = s.regs.desc_type := by
  obtain ⟨-, -, rfl⟩ | ⟨-, -, rfl⟩ | ⟨-, -, rfl⟩ | ⟨-, rfl⟩ | ⟨-, -, h⟩ := rxc_cases h
  · exact ⟨rfl, rfl, rfl⟩
  · exact ⟨rfl, rfl, rfl⟩
  · exact ⟨rfl, rfl, rfl⟩
  · exact ⟨rfl, rfl, rfl⟩
  · exact transmitView_dispatch (s := disarmWdt (setRx rxAwaitUnit s)) h

theorem transmitView_rxPhase {c : CycleInput} {s t : State} (h : rxPhase c s = .next t) :
    transmitView t = transmitView s ∧ t.rsp_reg = s.rsp_reg ∧ t.regs.desc_type = s.regs.desc_type := by
  unfold rxPhase at h
  split at h
  · exact transmitView_rxc h
  · cases h; exact ⟨rfl, rfl, rfl⟩

theorem transmitView_tickPhase {c : CycleInput} {s t : State} (h : tickPhase c s = .next t) :
    transmitView t = transmitView s ∧ t.rsp_reg = s.rsp_reg := by
  unfold tickPhase at h
  split at h
  · obtain ⟨-, rfl⟩ | ⟨-, -, rfl⟩ | ⟨-, -, rfl⟩ := tick_cases h <;> exact ⟨rfl, rfl⟩
  · cases h; exact ⟨rfl, rfl⟩

/-- A tick moves only the watchdog and the receive state: no stored value, type or event bit. -/
theorem storage_tickPhase {c : CycleInput} {s t : State} (h : tickPhase c s = .next t) :
    t.regs.event_word = s.regs.event_word ∧ t.regs.in_val = s.regs.in_val ∧ t.regs.desc_type = s.regs.desc_type := by
  unfold tickPhase at h
  split at h
  · obtain ⟨-, rfl⟩ | ⟨-, -, rfl⟩ | ⟨-, -, rfl⟩ := tick_cases h <;> exact ⟨rfl, rfl, rfl⟩
  · cases h; exact ⟨rfl, rfl, rfl⟩

/-! ## Commands -/

/-- Only SUBMIT touches the transmit path. -/
theorem transmitView_exec {i : Instr} {s t : State} (hi : ∀ u d, i ≠ .submit u d) (h : exec i s = .next t) :
    transmitView t = transmitView s := by
  cases hr : isRead i with
  | true =>
    obtain ⟨c, d, rfl⟩ := exec_read_cases hr h
    rfl
  | false =>
    cases i with
    | submit u d => exact absurd rfl (hi u d)
    | register idx ty cb => obtain ⟨c, rfl, -⟩ | ⟨-, -, -, -, -, rfl⟩ := execRegister_cases h <;> rfl
    | setCallback idx cb => obtain ⟨-, rfl⟩ | ⟨-, -, rfl⟩ := execSetCallback_cases h <;> rfl
    | eventClear idx => obtain ⟨-, rfl⟩ | ⟨-, -, rfl⟩ := execEventClear_cases h <;> rfl
    | eventClearAll => cases h; rfl
    | _ => cases hr

theorem inputs_exec {i : Instr} {s t : State} (h : exec i s = .next t) : t.inputs = s.inputs := by
  by_cases hi : ∃ u d, i = .submit u d
  · obtain ⟨u, d, rfl⟩ := hi
    exact congrArg ReceiveView.inputs (receiveView_execSubmit h)
  · exact congrArg TransmitView.inputs (transmitView_exec (fun u d hs => hi ⟨u, d, hs⟩) h)

theorem inputs_hostPhase {c : CycleInput} {s t : State} (h : hostPhase c s = .next t) : t.inputs = s.inputs := by
  unfold hostPhase at h
  split at h
  · exact inputs_exec h
  · cases h; rfl

/-! ## The cycle -/

/-- A cycle takes one entry of the inputs. -/
theorem inputs_step {s t : State} (h : step s = .next t) : t.inputs = s.inputs.tail := by
  obtain ⟨-, ⟨-, rfl⟩ | ⟨-, -, s1, s2, s3, h1, h2, h3, h4⟩⟩ := step_eq_next.mp h
  · exact resetCycle_inputs s
  · calc t.inputs = s3.inputs := congrArg TransmitView.inputs (transmitView_tickPhase h4).1
      _ = s2.inputs := congrArg TransmitView.inputs (transmitView_rxPhase h3).1
      _ = s1.inputs := inputs_hostPhase h2
      _ = (drainPhase (nextInput s) (beginCycle s)).inputs := congrArg ReceiveView.inputs (receiveView_txePhase h1)
      _ = s.inputs.tail := congrArg ReceiveView.inputs (receiveView_drainPhase _ _)

end Sys2Proof.Machine
end

section
/-! The wire shows the accepted pairs in order (20_memory.md R100, 40_transmit.md R171 and R172): each phase of a cycle moves the
bytes in flight one place on and loses none, and a run is its cycles' bytes put together. -/

namespace Sys2Proof.Machine

/-! ## The bytes in flight: THR, then what is pending behind it -/

/-- The accepted bytes that THR has not had yet, in the order it will get them. -/
def pendingBytes (s : State) : List Byte :=
  (if s.regs.mid_pair then [s.regs.second_byte] else []) ++ (queue s).flatMap entryBytes

theorem inFlight_eq (s : State) : inFlight s = inThr s ++ pendingBytes s := List.append_assoc _ _ _

theorem inThr_of_full {s : State} (h : s.regs.thr_full = true) : inThr s = [s.regs.thr_byte] := if_pos h

theorem inThr_of_empty {s : State} (h : s.regs.thr_full = false) : inThr s = [] := if_neg (by simp [h])

theorem pendingBytes_of_mid {s : State} (h : s.regs.mid_pair = true) :
    pendingBytes s = s.regs.second_byte :: (queue s).flatMap entryBytes := by
  simp [pendingBytes, h]

theorem pendingBytes_of_not_mid {s : State} (h : s.regs.mid_pair = false) :
    pendingBytes s = (queue s).flatMap entryBytes := by
  simp [pendingBytes, h]

/-- Nothing is pending in a state that does not have TXE enabled (10_state.md R65). -/
theorem pendingBytes_of_idle {s : State} (hi : Inv s) (h : s.regs.tx_int_en = false) : pendingBytes s = [] := by
  have hidle : ¬(s.regs.mid_pair = true ∨ 0 < rbCount s) := fun hn => Bool.false_ne_true (h.symm.trans (hi.int_iff.mpr hn))
  simp only [not_or, Bool.not_eq_true, Nat.not_lt, Nat.le_zero] at hidle
  obtain ⟨hm, hn⟩ := hidle
  rw [pendingBytes_of_not_mid hm, queue_eq_nil_iff.mpr hn, List.flatMap_nil]

theorem inFlight_congr {s t : State} (h : transmitView t = transmitView s) : inFlight t = inFlight s := by
  simp only [transmitView, TransmitView.mk.injEq] at h
  simp [inFlight, queue, rbCount, h]

/-! ## THR and the ports that show it -/

/-- From s to t there is one `thr_write`, of v, into an empty THR (40_transmit.md R161), and nothing reaches the wire. -/
structure ThrGets (v : Byte) (s t : State) : Prop where
  empty : s.regs.thr_full = false
  full  : t.regs.thr_full = true
  byte  : t.regs.thr_byte = v
  tx    : t.ports.tx = some v
  wire  : t.ports.wire = s.ports.wire

/-- From s to t neither THR nor the ports that show it change. -/
structure SameThr (s t : State) : Prop where
  full : t.regs.thr_full = s.regs.thr_full
  byte : t.regs.thr_byte = s.regs.thr_byte
  tx   : t.ports.tx = s.ports.tx
  wire : t.ports.wire = s.ports.wire

theorem sameThr_of_view {s t : State} (h : transmitView t = transmitView s) : SameThr s t :=
  ⟨congrArg TransmitView.thr_full h, congrArg TransmitView.thr_byte h, congrArg TransmitView.tx h, congrArg TransmitView.wire h⟩

theorem SameThr.inThr_eq {s t : State} (h : SameThr s t) : inThr t = inThr s := by
  simp [inThr, h.full, h.byte]

theorem ThrGets.inThr_eq {v : Byte} {s t : State} (h : ThrGets v s t) : inThr s = [] ∧ inThr t = [v] :=
  ⟨inThr_of_empty h.empty, by rw [inThr_of_full h.full, h.byte]⟩

/-- So far in a cycle that found the bytes b in THR: THR's bytes moved in order, and an empty THR has had no `thr_write` yet. -/
structure ThrInOrder (b : List Byte) (s : State) : Prop where
  bytes : wireBytes s ++ inThr s = b ++ s.ports.tx.toList
  fresh : s.regs.thr_full = false → s.ports.tx = none

theorem ThrInOrder.same {b : List Byte} {s t : State} (h : ThrInOrder b s) (hst : SameThr s t) : ThrInOrder b t :=
  ⟨by rw [wireBytes, hst.wire, hst.inThr_eq, hst.tx]; exact h.bytes, by rw [hst.full, hst.tx]; exact h.fresh⟩

theorem ThrInOrder.gets {b : List Byte} {v : Byte} {s t : State} (h : ThrInOrder b s) (hst : ThrGets v s t) : ThrInOrder b t := by
  obtain ⟨hs, ht⟩ := hst.inThr_eq
  have hw : wireBytes s = b := by simpa [hs, h.fresh hst.empty] using h.bytes
  refine ⟨?_, fun hf => absurd hst.full (by simp [hf])⟩
  rw [wireBytes, hst.wire, ht, hst.tx]
  exact congrArg (· ++ [v]) hw

/-! ## The bytes of an accepted pair -/

theorem acceptedBytes_congr {c : CycleInput} {s t : State} (h : t.rsp_reg = s.rsp_reg) : acceptedBytes c t = acceptedBytes c s := by
  simp [acceptedBytes, h]

theorem acceptedBytes_submit {c : CycleInput} {w : CmdWord} {u d : Byte} {t : State} {r : Response} (hc : c.cmd = some w)
    (hw : decode w = .submit u d) (hr : t.rsp_reg = some r) : acceptedBytes c t = if r.code = .ok then [u, d] else [] := by
  simp [acceptedBytes, hc, hw, hr]

theorem acceptedBytes_of_no_submit {c : CycleInput} (h : ∀ w u d, c.cmd = some w → decode w ≠ .submit u d) (t : State) :
    acceptedBytes c t = [] := by
  unfold acceptedBytes
  split
  · rename_i u d r hw _
    obtain ⟨w, hc, hd⟩ := Option.map_eq_some_iff.mp hw
    exact absurd hd (h w u d hc)
  · rfl

/-- An entry's bytes are the pair it was made of, unit byte first (20_memory.md R85). -/
theorem entryBytes_entryOf (u d : Byte) : entryBytes (entryOf u d) = [u, d] := by
  have hu : entryUnit (entryOf u d) = u := BitVec.extractLsb'_append_eq_left
  have hd : entryData (entryOf u d) = d := BitVec.extractLsb'_append_eq_right
  rw [entryBytes, hu, hd]

/-! ## The queue after the ring's part of TXE and of SUBMIT -/

theorem queue_eq_cons {e : Word16} {s t : State} (hr : RingOk s) (hn : 0 < rbCount s)
    (he : s.regs.rb_mem[s.regs.rb_head.toNat]? = some e) (hp : t.params = s.params) (hm : t.regs.rb_mem = s.regs.rb_mem)
    (hh : t.regs.rb_head = ringNext s.params.rbCapacity s.regs.rb_head) (hf : t.regs.rb_free = s.regs.rb_free + 1) :
    queue s = e :: queue t := by
  obtain ⟨hq, -⟩ := queue_of_dequeue hr (dequeue_eq_next.mpr ⟨hr.cap_pos, Nat.lt_of_sub_pos hn, he, rfl⟩)
  refine hq.trans (congrArg (List.cons e) (Eq.symm ?_))
  exact queue_congr (congrArg _ hp) hm hh hf

theorem queue_eq_append {e : Word16} {s t : State} (hr : RingOk s) (hn : 0 < s.regs.rb_free.toNat)
    (hlt : s.regs.rb_tail.toNat < s.regs.rb_mem.length) (hp : t.params = s.params)
    (hm : t.regs.rb_mem = s.regs.rb_mem.set s.regs.rb_tail.toNat e) (hh : t.regs.rb_head = s.regs.rb_head)
    (hf : t.regs.rb_free = s.regs.rb_free - 1) : queue t = queue s ++ [e] := by
  obtain ⟨hq, -⟩ := queue_of_enqueue hr (enqueue_eq_next.mpr ⟨hr.cap_pos, hn, hlt, rfl⟩)
  refine Eq.trans ?_ hq
  exact queue_congr (congrArg _ hp) hm hh hf

/-- An entry put into the queue comes after all that is pending. -/
theorem pendingBytes_append {u d : Byte} {s t : State} (hm : t.regs.mid_pair = s.regs.mid_pair)
    (hb : t.regs.second_byte = s.regs.second_byte) (hq : queue t = queue s ++ [entryOf u d]) :
    pendingBytes t = pendingBytes s ++ [u, d] := by
  simp [pendingBytes, hm, hb, hq, entryBytes_entryOf]

/-! ## What TXE and SUBMIT do to the bytes in flight -/

/-- TXE writes the first pending byte into THR (R167, R168, R170), or, with nothing pending, no byte moves (R169). -/
theorem txe_moves {s t : State} (hi : Inv s) (h : txe s = .next t) :
    (∃ v, ThrGets v s t ∧ pendingBytes s = v :: pendingBytes t) ∨ transmitView t = transmitView s := by
  obtain ⟨hm, hf, rfl⟩ | ⟨hc, hm, hn, hf, e, he, rfl⟩ | ⟨-, -, -, rfl⟩ := txe_cases h
  · refine .inl ⟨_, ⟨hf, rfl, rfl, rfl, rfl⟩, ?_⟩
    rw [pendingBytes_of_mid hm]
    rfl
  · refine .inl ⟨_, ⟨hf, rfl, rfl, rfl, rfl⟩, ?_⟩
    rw [pendingBytes_of_not_mid hm, pendingBytes_of_mid rfl]
    refine congrArg (List.flatMap entryBytes) (queue_eq_cons (hi.ringOk hc) hn he ?_ ?_ ?_ ?_) <;> rfl
  · exact .inr rfl

/-- An accepted SUBMIT puts its unit byte into THR and its data byte behind it where nothing was in flight (R163), or both bytes behind
all that is pending (R166). A SUBMIT that fails only answers. -/
theorem submit_moves {u d : Byte} {s t : State} (hi : Inv s) (h : execSubmit u d s = .next t) :
    (∃ x, t = respond .fail x s) ∨
    (t.rsp_reg = some ⟨.ok, 0x0000⟩ ∧
      ((ThrGets u s t ∧ pendingBytes s = [] ∧ pendingBytes t = [d]) ∨
        (SameThr s t ∧ pendingBytes t = pendingBytes s ++ [u, d]))) := by
  obtain (⟨-, -, ht⟩ | ⟨-, -, ht⟩) | ⟨hc, hf, hen, -, rfl⟩ | ⟨hc, hn, hlt, -, ht⟩ := execSubmit_cases h
  · exact .inl ⟨_, ht⟩
  · exact .inl ⟨_, ht⟩
  · refine .inr ⟨rfl, .inl ⟨⟨hf, rfl, rfl, rfl, rfl⟩, pendingBytes_of_idle hi hen, ?_⟩⟩
    rw [pendingBytes_of_mid rfl, queue_eq_nil_iff.mpr (by simp [rbCount, hc])]
    rfl
  · have hq : queue t = queue s ++ [entryOf u d] := by
      refine queue_eq_append (hi.ringOk hc) hn hlt ?_ ?_ ?_ ?_ <;> rw [ht]
    subst ht
    refine .inr ⟨rfl, .inr ⟨⟨rfl, rfl, rfl, rfl⟩, ?_⟩⟩
    exact pendingBytes_append rfl rfl hq

/-! ## A cycle, phase by phase -/

theorem drainPhase_moves (c : CycleInput) {s : State} (hw : s.ports.wire = none) (ht : s.ports.tx = none) :
    ThrInOrder (inThr s) (drainPhase c s) ∧ wireBytes (drainPhase c s) ++ inFlight (drainPhase c s) = inFlight s := by
  unfold drainPhase
  split
  · rename_i h
    have hf : s.regs.thr_full = true := (Bool.and_eq_true_iff.mp h).2
    refine ⟨⟨?_, fun _ => ht⟩, ?_⟩
    · rw [inThr_of_full hf, inThr_of_empty (drain_thr_full s), drain_ports, ht]
      rfl
    · rw [inFlight_eq s, inFlight_eq (drain s), inThr_of_full hf, inThr_of_empty (drain_thr_full s)]
      rfl
  · exact ⟨⟨by simp [wireBytes, hw, ht], fun _ => ht⟩, by simp [wireBytes, hw]⟩

theorem txePhase_moves {b : List Byte} {s t : State} (hi : Inv s) (hb : ThrInOrder b s) (h : txePhase s = .next t) :
    ThrInOrder b t ∧ wireBytes t ++ inFlight t = wireBytes s ++ inFlight s := by
  unfold txePhase at h
  split at h
  · obtain ⟨v, hg, hp⟩ | hv := txe_moves hi h
    · obtain ⟨hs, ht⟩ := hg.inThr_eq
      refine ⟨hb.gets hg, ?_⟩
      rw [wireBytes, hg.wire, inFlight_eq t, inFlight_eq s, hs, ht, hp]
      rfl
    · have hst := sameThr_of_view hv
      exact ⟨hb.same hst, by rw [wireBytes, hst.wire, inFlight_congr hv]; rfl⟩
  · cases h; exact ⟨hb, rfl⟩

theorem submit_conserves {b : List Byte} {u d : Byte} {s t : State} (hi : Inv s) (hb : ThrInOrder b s)
    (h : execSubmit u d s = .next t) :
    ThrInOrder b t ∧ ∃ r, t.rsp_reg = some r ∧
      wireBytes t ++ inFlight t = wireBytes s ++ inFlight s ++ if r.code = .ok then [u, d] else [] := by
  obtain ⟨x, rfl⟩ | ⟨hr, ⟨hg, hs, ht⟩ | ⟨hst, hp⟩⟩ := submit_moves hi h
  · exact ⟨hb.same ⟨rfl, rfl, rfl, rfl⟩, _, rfl, (List.append_nil _).symm⟩
  · refine ⟨hb.gets hg, _, hr, ?_⟩
    obtain ⟨hs', ht'⟩ := hg.inThr_eq
    rw [wireBytes, hg.wire, inFlight_eq, inFlight_eq, hs, ht, hs', ht', List.append_nil, List.append_nil]
    rfl
  · refine ⟨hb.same hst, _, hr, ?_⟩
    rw [wireBytes, hst.wire, inFlight_eq, inFlight_eq, hst.inThr_eq, hp]
    simp [wireBytes]

theorem hostPhase_moves {b : List Byte} {c : CycleInput} {s t : State} (hi : Inv s) (hb : ThrInOrder b s)
    (h : hostPhase c s = .next t) :
    ThrInOrder b t ∧ wireBytes t ++ inFlight t = wireBytes s ++ inFlight s ++ acceptedBytes c t := by
  by_cases hsub : ∃ w u d, c.cmd = some w ∧ decode w = .submit u d
  · obtain ⟨w, u, d, hc, hw⟩ := hsub
    simp only [hostPhase, hc, hw] at h
    obtain ⟨hbt, r, hr, heq⟩ := submit_conserves hi hb h
    exact ⟨hbt, by rw [acceptedBytes_submit hc hw hr, heq]⟩
  · have hno : ∀ w u d, c.cmd = some w → decode w ≠ .submit u d := fun w u d hc hw => hsub ⟨w, u, d, hc, hw⟩
    have hv : transmitView t = transmitView s := by
      unfold hostPhase at h
      split at h
      · rename_i w hc
        exact transmitView_exec (fun u d => hno w u d hc) h
      · cases h; rfl
    have hst := sameThr_of_view hv
    refine ⟨hb.same hst, ?_⟩
    rw [acceptedBytes_of_no_submit hno, List.append_nil, inFlight_congr hv, wireBytes, hst.wire]
    rfl

/-- One cycle: the wire's byte and THR's are THR's byte and the one written, and the wire's byte and those in flight are those that were
in flight and the pair accepted. -/
theorem step_moves {s t : State} (hi : Inv s) (hr : (nextInput s).rst = false) (h : step s = .next t) :
    wireBytes t ++ inThr t = inThr s ++ t.ports.tx.toList ∧
      wireBytes t ++ inFlight t = inFlight s ++ acceptedBytes (nextInput s) t := by
  obtain ⟨-, ⟨hr', -⟩ | ⟨-, -, s1, s2, s3, h1, h2, h3, h4⟩⟩ := step_eq_next.mp h
  · exact absurd hr' (by simp [hr])
  · have hi0 := inv_drainPhase (inv_beginCycle hi) (nextInput s)
    obtain ⟨hb0, heq0⟩ := drainPhase_moves (nextInput s) (s := beginCycle s) rfl rfl
    obtain ⟨hb1, heq1⟩ := txePhase_moves hi0 hb0 h1
    obtain ⟨hb2, heq2⟩ := hostPhase_moves (inv_txePhase hi0 h1) hb1 h2
    obtain ⟨hv3, hrsp3, -⟩ := transmitView_rxPhase h3
    obtain ⟨hv4, hrsp4⟩ := transmitView_tickPhase h4
    have hv : transmitView t = transmitView s2 := hv4.trans hv3
    have hst := sameThr_of_view hv
    refine ⟨(hb2.same hst).bytes, ?_⟩
    calc wireBytes t ++ inFlight t = wireBytes s2 ++ inFlight s2 := by rw [wireBytes, hst.wire, inFlight_congr hv]; rfl
      _ = inFlight s ++ acceptedBytes (nextInput s) s2 := by rw [heq2, heq1, heq0]; rfl
      _ = inFlight s ++ acceptedBytes (nextInput s) t := by rw [acceptedBytes_congr (hrsp4.trans hrsp3)]

/-! ## Runs -/

theorem trace_succ {k : Nat} {s t : State} (h : step s = .next t) : trace (k + 1) s = t :: trace k t := by
  simp [trace, h]

theorem wireStream_succ {k : Nat} {s t : State} (h : step s = .next t) :
    wireStream (k + 1) s = wireBytes t ++ wireStream k t := by
  simp [wireStream, trace_succ h]

theorem writtenStream_succ {k : Nat} {s t : State} (h : step s = .next t) :
    writtenStream (k + 1) s = t.ports.tx.toList ++ writtenStream k t := by
  simp [writtenStream, trace_succ h]

theorem acceptedStream_succ {k : Nat} {s t : State} (h : step s = .next t) :
    acceptedStream (k + 1) s = acceptedBytes (nextInput s) t ++ acceptedStream k t := by
  simp [acceptedStream, h]

/-- A run without reset starts with a cycle without reset, and goes on as one. -/
theorem NoReset.succ {k : Nat} {s t : State} (h : NoReset (k + 1) s) (hs : step s = .next t) :
    (nextInput s).rst = false ∧ NoReset k t := by
  unfold NoReset at *
  rw [inputs_step hs]
  unfold nextInput
  cases hin : s.inputs with
  | nil => exact ⟨rfl, by simp⟩
  | cons c rest =>
    rw [hin] at h
    exact ⟨h c List.mem_cons_self, fun x hx => h x (List.mem_cons_of_mem c hx)⟩

/-- Where each cycle's moves keep the order of the bytes held, the run's moves do. -/
theorem append_chain {α : Type} {a b c d e f g : List α} (h1 : a ++ b = c ++ d) (h2 : e ++ f = b ++ g) :
    a ++ e ++ f = c ++ (d ++ g) := by
  rw [List.append_assoc, h2, ← List.append_assoc, h1, List.append_assoc]

theorem run_moves {k : Nat} {s t : State} (hi : Inv s) (hn : NoReset k s) (h : Host.Core.run Sys2Proof.core k s = .next t) :
    wireStream k s ++ inThr t = inThr s ++ writtenStream k s ∧ wireStream k s ++ inFlight t = inFlight s ++ acceptedStream k s := by
  induction k generalizing s with
  | zero =>
    cases h
    exact ⟨(List.append_nil _).symm, (List.append_nil _).symm⟩
  | succ k ih =>
    obtain ⟨s1, hs, h⟩ := run_succ_eq_next.mp h
    obtain ⟨hr, hn1⟩ := hn.succ hs
    obtain ⟨hthr, hfly⟩ := step_moves hi hr hs
    obtain ⟨ihthr, ihfly⟩ := ih (inv_step hs) hn1 h
    rw [wireStream_succ hs, writtenStream_succ hs, acceptedStream_succ hs]
    exact ⟨append_chain hthr ihthr, append_chain hfly ihfly⟩

theorem txePhase_goes {s : State} (hi : Inv s) : ∃ t, txePhase s = .next t := by
  unfold txePhase
  split
  · rename_i hen
    exact txe_goes hi hen
  · exact ⟨_, rfl⟩

theorem hostPhase_goes {s : State} (hi : Inv s) (c : CycleInput) : ∃ t, hostPhase c s = .next t := by
  unfold hostPhase
  split
  · exact exec_goes hi _
  · exact ⟨_, rfl⟩

theorem rxPhase_goes {s : State} (hi : Inv s) (c : CycleInput) : ∃ t, rxPhase c s = .next t := by
  unfold rxPhase
  split
  · exact rxc_goes hi _ _
  · exact ⟨_, rfl⟩

theorem tickPhase_goes {s : State} (hi : Inv s) (c : CycleInput) : ∃ t, tickPhase c s = .next t := by
  unfold tickPhase
  split
  · exact tick_goes hi
  · exact ⟨_, rfl⟩

/-- Where the invariants hold a cycle completes, whatever its inputs. -/
theorem step_goes {s : State} (hi : Inv s) : ∃ t, step s = .next t := by
  cases hr : (nextInput s).rst with
  | true => exact ⟨_, step_reset hi.legal hr⟩
  | false =>
    rw [step_run hi hr]
    have hi0 := inv_drainPhase (inv_beginCycle hi) (nextInput s)
    refine andThen_goes (txePhase_goes hi0) fun s1 h1 => ?_
    have hi1 := inv_txePhase hi0 h1
    refine andThen_goes (hostPhase_goes hi1 _) fun s2 h2 => ?_
    have hi2 := inv_hostPhase hi1 h2
    exact andThen_goes (rxPhase_goes hi2 _) fun s3 h3 => tickPhase_goes (inv_rxPhase hi2 h3) _

theorem run_goes (k : Nat) {s : State} (hi : Inv s) : ∃ t, Host.Core.run Sys2Proof.core k s = .next t := by
  induction k generalizing s with
  | zero => exact ⟨s, rfl⟩
  | succ k ih =>
    obtain ⟨s1, hs⟩ := step_goes hi
    rw [run_succ_next hs]
    exact ih (inv_step hs)

/-- Settles O28: every cycle keeps the bytes in order, so every run does; and from reset, where nothing is in flight, every run completes. -/
theorem wireShowsAcceptedPairsInOrder : Obligations.WireShowsAcceptedPairsInOrder := by
  refine ⟨fun k s t hi hn h => run_moves hi hn h, fun k p ins hp hn => ?_⟩
  have hi := inv_resetOf hp ins
  obtain ⟨t, h⟩ := run_goes k hi
  have hempty : inFlight (State.resetOf p ins) = [] := by
    rw [inFlight_eq, inThr_of_empty rfl, pendingBytes_of_idle hi rfl, List.append_nil]
  refine ⟨t, h, ?_⟩
  rw [(run_moves hi hn h).2, hempty, List.nil_append]

end Sys2Proof.Machine
end

section
/-! The event bits (20_memory.md R96): only a dispatch raises one, and only a clear or a reset lowers one; RXC comes after the command. -/

namespace Sys2Proof.Machine

/-! ## Commands -/

/-- The command clears event bit j in s: EVENT_CLEAR of that index, in range, or EVENT_CLEAR_ALL (42_registry.md R249, R250). -/
def ClearsEvent (j : Nat) (i : Instr) (s : State) : Prop :=
  i = .eventClearAll ∨ ∃ idx, i = .eventClear idx ∧ idx.toNat = j ∧ j < s.params.numUnits

theorem clearsEvent_congr {j : Nat} {i : Instr} {s t : State} (h : t.params.numUnits = s.params.numUnits) :
    ClearsEvent j i t ↔ ClearsEvent j i s := by
  rw [ClearsEvent, ClearsEvent, h]

/-- A command writes no register of the receive state machine, and an event bit only to clear it. -/
theorem exec_event_bits {i : Instr} {s t : State} (h : exec i s = .next t) :
    t.regs.rx_state = s.regs.rx_state ∧ t.regs.pending_unit = s.regs.pending_unit ∧
    ∀ j, t.regs.event_word.getLsbD j = s.regs.event_word.getLsbD j ∨
      (t.regs.event_word.getLsbD j = false ∧ ClearsEvent j i s) := by
  cases hr : isRead i with
  | true =>
    obtain ⟨c, d, rfl⟩ := exec_read_cases hr h
    exact ⟨rfl, rfl, fun _ => .inl rfl⟩
  | false =>
    cases i with
    | submit u d =>
      have hv := receiveView_execSubmit h
      exact ⟨congrArg ReceiveView.rx_state hv, congrArg ReceiveView.pending_unit hv,
        fun j => .inl (congrArg (fun v => v.event_word.getLsbD j) hv)⟩
    | register idx ty cb =>
      obtain ⟨c, rfl, -⟩ | ⟨-, -, -, -, -, rfl⟩ := execRegister_cases h <;> exact ⟨rfl, rfl, fun _ => .inl rfl⟩
    | setCallback idx cb =>
      obtain ⟨-, rfl⟩ | ⟨-, -, rfl⟩ := execSetCallback_cases h <;> exact ⟨rfl, rfl, fun _ => .inl rfl⟩
    | eventClear idx =>
      obtain ⟨-, rfl⟩ | ⟨hlt, h64, rfl⟩ := execEventClear_cases h
      · exact ⟨rfl, rfl, fun _ => .inl rfl⟩
      · refine ⟨rfl, rfl, fun j => ?_⟩
        have hbit := getLsbD_withEventBit s.regs.event_word h64 false j
        by_cases hj : j = idx.toNat
        · exact .inr ⟨by rw [hbit, if_pos hj], .inr ⟨idx, rfl, hj.symm, hj ▸ hlt⟩⟩
        · exact .inl (by rw [hbit, if_neg hj])
    | eventClearAll =>
      cases h
      exact ⟨rfl, rfl, fun j => .inr ⟨by simp, .inl rfl⟩⟩
    | _ => cases hr

theorem hostPhase_event_bits {c : CycleInput} {s t : State} (h : hostPhase c s = .next t) :
    t.regs.rx_state = s.regs.rx_state ∧ t.regs.pending_unit = s.regs.pending_unit ∧
    ∀ j, t.regs.event_word.getLsbD j = s.regs.event_word.getLsbD j ∨
      (t.regs.event_word.getLsbD j = false ∧ ∃ w, c.cmd = some w ∧ ClearsEvent j (decode w) s) := by
  unfold hostPhase at h
  split at h
  · rename_i w hc
    obtain ⟨hx, hp, hbits⟩ := exec_event_bits h
    exact ⟨hx, hp, fun j => (hbits j).imp_right fun ⟨h0, hcl⟩ => ⟨h0, w, hc, hcl⟩⟩
  · cases h
    exact ⟨rfl, rfl, fun _ => .inl rfl⟩

/-! ## RXC -/

/-- The byte of the cycle's input completes the pair that s is receiving, for the unit i, and t has that unit registered (41_receive.md
R203, R210). -/
def CompletesPairFor (i : Nat) (c : CycleInput) (s t : State) : Prop :=
  s.regs.rx_state = rxAwaitData ∧ unitIndex s.regs.pending_unit = i ∧ Registered t i ∧ ∃ b, c.rx = some b ∧ rxErr b = false

theorem rxErr_eq_false_iff {b : RxByte} : rxErr b = false ↔ b.fe = false ∧ b.pe = false := by
  simp [rxErr]

theorem completesPairFor_congr {i : Nat} {c : CycleInput} {s s' t t' : State} (hx : s'.regs.rx_state = s.regs.rx_state)
    (hp : s'.regs.pending_unit = s.regs.pending_unit) (hn : t'.params = t.params)
    (ht : t'.regs.desc_type = t.regs.desc_type) : CompletesPairFor i c s' t' ↔ CompletesPairFor i c s t := by
  simp only [CompletesPairFor, Registered, hx, hp, hn, ht]

/-- A dispatch raises the bit and stores the byte of its unit, where that is registered, and no other event bit changes. -/
theorem dispatch_event_bit {u d : Byte} {s t : State} (h : dispatch u d s = .next t) (i : Nat) :
    (unitIndex u = i ∧ Registered s i → t.regs.event_word.getLsbD i = true ∧ t.regs.in_val[i]? = some d) ∧
      (¬(unitIndex u = i ∧ Registered s i) → t.regs.event_word.getLsbD i = s.regs.event_word.getLsbD i) := by
  obtain ⟨hun, rfl⟩ | ⟨hreg, hl, h64, cb, -, rfl⟩ := dispatch_eq_next.mp h
  · refine ⟨?_, fun _ => rfl⟩
    rintro ⟨rfl, hreg⟩
    exact absurd hreg (not_registered_of_unregistered hun)
  · have hbit := getLsbD_withEventBit s.regs.event_word h64 true i
    constructor
    · rintro ⟨rfl, -⟩
      exact ⟨by rw [hbit, if_pos rfl], List.getElem?_set_self hl⟩
    · intro hne
      have hi : i ≠ unitIndex u := fun hi => hne ⟨hi.symm, hi ▸ hreg⟩
      rw [hbit, if_neg hi]

/-- RXC dispatches the pair that a clean byte completes (R203); in every other transition no event bit changes (R201, R202, R204, R205). -/
theorem rxc_dispatches_or_rests {b : Byte} {err : Bool} {s t : State} (h : rxc b err s = .next t) :
    (s.regs.rx_state = rxAwaitData ∧ err = false ∧ dispatch s.regs.pending_unit b (disarmWdt (setRx rxAwaitUnit s)) = .next t) ∨
      (¬(s.regs.rx_state = rxAwaitData ∧ err = false) ∧ t.regs.event_word = s.regs.event_word) := by
  have hunit : rxAwaitUnit ≠ rxAwaitData := by decide
  have hresync : rxResyncDiscard ≠ rxAwaitData := by decide
  obtain ⟨hx, -, rfl⟩ | ⟨hx, -, rfl⟩ | ⟨-, he, rfl⟩ | ⟨hx, rfl⟩ | hd := rxc_cases h
  · exact .inr ⟨fun hd => hunit (hx.symm.trans hd.1), rfl⟩
  · exact .inr ⟨fun hd => hunit (hx.symm.trans hd.1), rfl⟩
  · exact .inr ⟨fun hd => Bool.false_ne_true (hd.2.symm.trans he), rfl⟩
  · exact .inr ⟨fun hd => hresync (hx.symm.trans hd.1), rfl⟩
  · exact .inl hd

theorem rxPhase_event_bit {c : CycleInput} {s t : State} (h : rxPhase c s = .next t) (i : Nat) :
    (CompletesPairFor i c s s → t.regs.event_word.getLsbD i = true ∧ ∃ b, c.rx = some b ∧ t.regs.in_val[i]? = some b.data) ∧
      (¬ CompletesPairFor i c s s → t.regs.event_word.getLsbD i = s.regs.event_word.getLsbD i) := by
  unfold rxPhase at h
  split at h
  · rename_i b hb
    have hiff : CompletesPairFor i c s s ↔
        (s.regs.rx_state = rxAwaitData ∧ rxErr b = false) ∧ unitIndex s.regs.pending_unit = i ∧ Registered s i := by
      simp only [CompletesPairFor, hb, Option.some.injEq, exists_eq_left']
      tauto
    rw [hiff]
    obtain ⟨hx, he, hd⟩ | ⟨hno, heq⟩ := rxc_dispatches_or_rests h
    · obtain ⟨hset, hkeep⟩ := dispatch_event_bit hd i
      exact ⟨fun hc => ⟨(hset hc.2).1, b, hb, (hset hc.2).2⟩, fun hc => hkeep fun hc' => hc ⟨⟨hx, he⟩, hc'⟩⟩
    · exact ⟨fun hc => absurd hc.1 hno, fun _ => by rw [heq]⟩
  · rename_i hb
    cases h
    refine ⟨fun ⟨_, _, _, b, hb', _⟩ => ?_, fun _ => rfl⟩
    rw [hb] at hb'
    cases hb'

/-! ## The cycle -/

/-- What a cycle without reset does to the event bit i: set by a pair that it completes for i (with the type that the cycle's own command
left), else kept, or cleared by the cycle's command. -/
theorem step_event_bit {s t : State} (hr : (nextInput s).rst = false) (h : step s = .next t) (i : Nat) :
    (CompletesPairFor i (nextInput s) s t →
      t.regs.event_word.getLsbD i = true ∧ ∃ b, (nextInput s).rx = some b ∧ t.regs.in_val[i]? = some b.data) ∧
    (¬ CompletesPairFor i (nextInput s) s t →
      t.regs.event_word.getLsbD i = s.regs.event_word.getLsbD i ∨
      (t.regs.event_word.getLsbD i = false ∧ ∃ w, (nextInput s).cmd = some w ∧ ClearsEvent i (decode w) s)) := by
  obtain ⟨-, ⟨hr', -⟩ | ⟨-, -, s1, s2, s3, h1, h2, h3, h4⟩⟩ := step_eq_next.mp h
  · exact absurd hr' (by simp [hr])
  · have hv : receiveView s1 = receiveView (beginCycle s) := (receiveView_txePhase h1).trans (receiveView_drainPhase _ _)
    obtain ⟨hx, hp, hbits⟩ := hostPhase_event_bits h2
    obtain ⟨hset, hkeep⟩ := rxPhase_event_bit h3 i
    obtain ⟨-, -, ht3⟩ := transmitView_rxPhase h3
    obtain ⟨hw4, hin4, ht4⟩ := storage_tickPhase h4
    have hparams : s2.params = t.params := ((params_tickPhase h4).trans (params_rxPhase h3)).symm
    have hcong : CompletesPairFor i (nextInput s) s2 s2 ↔ CompletesPairFor i (nextInput s) s t :=
      completesPairFor_congr (hx.trans (congrArg ReceiveView.rx_state hv)) (hp.trans (congrArg ReceiveView.pending_unit hv))
        hparams (ht4.trans ht3).symm
    have hword : s1.regs.event_word = s.regs.event_word := congrArg ReceiveView.event_word hv
    have hunits : s1.params.numUnits = s.params.numUnits := congrArg ReceiveView.numUnits hv
    rw [hcong] at hset hkeep
    rw [hw4, hin4]
    refine ⟨hset, fun hc => ?_⟩
    rw [hkeep hc, ← hword]
    simpa only [clearsEvent_congr hunits] using hbits i

/-- Settles O37: a reset cycle clears every bit, and any other cycle does what `step_event_bit` says, so the bit rises exactly with a pair
completed for its unit and falls only where none was. -/
theorem eventBitTransitions : Obligations.EventBitTransitions := by
  intro s t i hi h
  cases hr : (nextInput s).rst with
  | true =>
    have hz : t.regs.event_word.getLsbD i = false := by
      rw [step_reset hi.legal hr] at h
      cases h
      exact BitVec.getLsbD_zero
    exact ⟨fun _ h1 => absurd h1 (by simp [hz]), fun _ _ => .inl rfl, fun h0 => absurd h0 (by simp)⟩
  | false =>
    obtain ⟨hset, hkeep⟩ := step_event_bit hr h i
    have hunits : t.params.numUnits = s.params.numUnits := congrArg Params.numUnits (params_step h)
    refine ⟨fun h0 h1 => ?_, fun h1 h0 => ?_, fun _ hx hp hlt hty hb => ?_⟩
    · have hc : CompletesPairFor i (nextInput s) s t := by
        by_contra hc
        obtain heq | ⟨hz, -⟩ := hkeep hc
        · exact Bool.false_ne_true (h0.symm.trans (heq.symm.trans h1))
        · exact Bool.false_ne_true (hz.symm.trans h1)
      have ⟨hx, hp, ⟨hlt, hty⟩, b, hb, herr⟩ := hc
      obtain ⟨-, b', hb', hin⟩ := hset hc
      obtain rfl : b = b' := Option.some.inj (hb.symm.trans hb')
      obtain ⟨hfe, hpe⟩ := rxErr_eq_false_iff.mp herr
      exact ⟨rfl, hx, hp, hunits ▸ hlt, hty, b, hb, hfe, hpe, hin⟩
    · have hc : ¬ CompletesPairFor i (nextInput s) s t := fun hc => Bool.false_ne_true (h0.symm.trans (hset hc).1)
      obtain heq | ⟨-, hclear⟩ := hkeep hc
      · exact absurd (h0.symm.trans (heq.trans h1)) Bool.false_ne_true
      · exact .inr hclear
    · obtain ⟨b, hb, hclean⟩ := hb
      exact (hset ⟨hx, hp, ⟨hunits ▸ hlt, hty⟩, b, hb, rxErr_eq_false_iff.mpr hclean⟩).1

end Sys2Proof.Machine
end

section
/-! The reading commands (20_memory.md R95). -/

namespace Sys2Proof.Machine

/-- No reading command reads the response that is held: it answers the same next state whatever stands there. -/
theorem exec_read_respond {i : Instr} (hr : isRead i = true) (c : RspCode) (d : Word16) (s : State) :
    exec i (respond c d s) = exec i s := by
  cases i with
  | submit u d => cases hr
  | register idx ty cb => cases hr
  | setCallback idx cb => cases hr
  | eventClear idx => cases hr
  | eventClearAll => cases hr
  | _ => rfl

/-- Settles O48: a reading command only writes its response, and does not read it. -/
theorem readsChangeNothing : Obligations.ReadsChangeNothing := by
  intro i s t hi h
  have hr : isRead i = true := by
    obtain rfl | rfl | ⟨x, rfl | rfl | rfl | rfl⟩ := hi <;> rfl
  obtain ⟨c, d, rfl⟩ := exec_read_cases hr h
  exact ⟨rfl, (exec_read_respond hr c d s).trans h⟩

end Sys2Proof.Machine
end

section
/-! The fields that a command's opcode uses are all that decoding reads of a word (30_encoding.md R131, R135, R136). -/

namespace Sys2Proof

/-- A field of a field is a field of the word. -/
theorem extractLsb'_extractLsb' {n start len start' len' : Nat} (x : BitVec n) (h : start' + len' ≤ len) :
    (x.extractLsb' start len).extractLsb' start' len' = x.extractLsb' (start + start') len' := by
  apply BitVec.eq_of_getLsbD_eq
  intro i hi
  have hlen : start' + i < len := by omega
  simp [hi, hlen, Nat.add_assoc]

theorem idxField_eq (w : CmdWord) : idxField w = (w.extractLsb' 8 6).setWidth 8 :=
  congrArg (BitVec.setWidth 8) (extractLsb'_extractLsb' w (by decide))

theorem toNat_idxField (w : CmdWord) : (idxField w).toNat = (w.extractLsb' 8 6).toNat := by
  rw [idxField_eq, BitVec.toNat_setWidth_of_le (by decide)]

theorem cbField_eq (w : CmdWord) : cbField w = w.getLsbD 0 := by simp [cbField, dField]

theorem uField_eq (w : CmdWord) : uField w = (w.extractLsb' 0 16).extractLsb' 8 8 :=
  (extractLsb'_extractLsb' w (show 8 + 8 ≤ 16 by decide)).symm

theorem dField_eq (w : CmdWord) : dField w = (w.extractLsb' 0 16).extractLsb' 0 8 :=
  (extractLsb'_extractLsb' w (show 0 + 8 ≤ 16 by decide)).symm

/-- R135: two words with the same opcode, and the same value of each field that it uses, are the same command. -/
theorem decode_congr {w w' : CmdWord} (hop : opField w = opField w')
    (hpair : opField w = 1#4 → uField w = uField w' ∧ dField w = dField w')
    (hty : opField w = 2#4 → aField w = aField w')
    (hidx : 2 ≤ (opField w).toNat ∧ (opField w).toNat ≤ 8 → idxField w = idxField w')
    (hcb : opField w = 2#4 ∨ opField w = 3#4 → cbField w = cbField w') : decode w = decode w' := by
  have index : ∀ n, (opField w).toNat = n → 2 ≤ n → n ≤ 8 → idxField w = idxField w' :=
    fun n hn h2 h8 => hidx (by omega)
  have op : ∀ {c : BitVec 4}, (opField w).toNat = c.toNat → opField w = c := BitVec.eq_of_toNat_eq
  unfold decode
  rw [← hop]
  split
  case h_2 hn =>
    obtain ⟨hu, hd⟩ := hpair (op hn)
    rw [hu, hd]
  case h_3 hn => rw [index 2 hn (by decide) (by decide), hty (op hn), hcb (.inl (op hn))]
  case h_4 hn => rw [index 3 hn (by decide) (by decide), hcb (.inr (op hn))]
  case h_5 hn => rw [index 4 hn (by decide) (by decide)]
  case h_6 hn => rw [index 5 hn (by decide) (by decide)]
  case h_7 hn => rw [index 6 hn (by decide) (by decide)]
  case h_8 hn => rw [index 7 hn (by decide) (by decide)]
  case h_9 hn => rw [index 8 hn (by decide) (by decide)]
  all_goals rfl

end Sys2Proof
end

section
/-! Which commands answer ILLEGAL (00_scope.md R19; 30_encoding.md R135). -/

namespace Sys2Proof.Machine

/-- R135's three reasons, said of a decoded command in a state: a reserved opcode, an index out of range, a reserved or absent type. -/
def IllegalIn (s : State) : Instr → Prop
  | .nop | .submit _ _ | .eventClearAll | .status => False
  | .register idx ty _ => s.params.numUnits ≤ idx.toNat ∨ typeReserved ty = true ∨ typeAbsent s.params ty = true
  | .setCallback idx _ | .getInput idx | .getOutput idx | .getDesc idx | .eventGet idx | .eventClear idx => s.params.numUnits ≤ idx.toNat
  | .reservedB | .reservedC | .reservedD | .reservedE | .reservedF => True

/-- The state holds the response ILLEGAL, whatever its cause. -/
def HoldsIllegal (t : State) : Prop := ∃ d, t.rsp_reg = some ⟨.illegal, d⟩

theorem holdsIllegal_iff {t : State} {c : RspCode} {d : Word16} (h : t.rsp_reg = some ⟨c, d⟩) : HoldsIllegal t ↔ c = .illegal := by
  simp [HoldsIllegal, h]

theorem holdsIllegal_respond (c : RspCode) (d : Word16) (s : State) : HoldsIllegal (respond c d s) ↔ c = .illegal :=
  holdsIllegal_iff rfl

/-- SUBMIT has no illegal operands (40_transmit.md R173). -/
theorem not_holdsIllegal_execSubmit {u d : Byte} {s t : State} (h : execSubmit u d s = .next t) : ¬ HoldsIllegal t := by
  obtain (⟨-, -, rfl⟩ | ⟨-, -, rfl⟩) | ⟨-, -, -, -, rfl⟩ | ⟨-, -, -, -, rfl⟩ := execSubmit_cases h <;>
    simp [HoldsIllegal]

theorem holdsIllegal_execRegister_iff {idx : Byte} {ty : BitVec 4} {cb : Bool} {s t : State} (h : execRegister idx ty cb s = .next t) :
    HoldsIllegal t ↔ IllegalIn s (.register idx ty cb) := by
  obtain ⟨c, rfl, hc⟩ | ⟨hi, hr, ha, -, -, rfl⟩ := execRegister_cases h
  · rw [holdsIllegal_respond, IllegalIn]
    obtain ⟨hi, -⟩ | ⟨-, hr, -⟩ | ⟨-, -, ha, -⟩ := hc <;> simp [*]
  · rw [holdsIllegal_iff rfl, IllegalIn]
    simp [hr, ha, hi]

/-- An indexed command that answers OK for every index in range answers ILLEGAL exactly for the indices out of range. -/
theorem holdsIllegal_withIndex_iff {idx : Byte} {s t : State} {k : Nat → Result State}
    (hok : ∀ i t, k i = .next t → ∃ d, t.rsp_reg = some ⟨.ok, d⟩) (h : withIndex idx s k = .next t) :
    HoldsIllegal t ↔ s.params.numUnits ≤ idx.toNat := by
  obtain ⟨hi, rfl⟩ | ⟨hi, h⟩ := withIndex_eq_next.mp h
  · simp [holdsIllegal_respond, hi]
  · obtain ⟨d, hd⟩ := hok _ _ h
    simp [holdsIllegal_iff hd, hi]

/-- A command whose last act after one access is to answer OK has answered OK. -/
theorem ok_of_andThen {α : Type} {r : Result α} {d : α → Word16} {f : α → State} {t : State}
    (h : andThen r (fun a => .next (respond .ok (d a) (f a))) = .next t) : ∃ d, t.rsp_reg = some ⟨.ok, d⟩ := by
  obtain ⟨a, -, h⟩ := andThen_eq_next.mp h
  cases h
  exact ⟨_, rfl⟩

/-- R135: a command that answers at all answers ILLEGAL for R135's reasons and no other. -/
theorem holdsIllegal_exec_iff {i : Instr} {s t : State} (h : exec i s = .next t) : HoldsIllegal t ↔ IllegalIn s i := by
  cases i with
  | submit u d => exact iff_of_false (not_holdsIllegal_execSubmit h) id
  | register idx ty cb => exact holdsIllegal_execRegister_iff h
  | setCallback idx cb =>
    unfold exec execSetCallback at h
    exact holdsIllegal_withIndex_iff (fun _ _ => ok_of_andThen) h
  | getInput idx =>
    unfold exec execGetInput at h
    exact holdsIllegal_withIndex_iff (fun _ _ => ok_of_andThen) h
  | getOutput idx =>
    unfold exec execGetOutput at h
    exact holdsIllegal_withIndex_iff (fun _ _ => ok_of_andThen) h
  | getDesc idx =>
    unfold exec execGetDesc at h
    refine holdsIllegal_withIndex_iff (fun _ _ hk => ?_) h
    obtain ⟨cb, -, hk⟩ := andThen_eq_next.mp hk
    exact ok_of_andThen hk
  | eventGet idx =>
    unfold exec execEventGet at h
    exact holdsIllegal_withIndex_iff (fun _ _ => ok_of_andThen) h
  | eventClear idx =>
    unfold exec execEventClear at h
    exact holdsIllegal_withIndex_iff (fun _ _ => ok_of_andThen) h
  | nop | eventClearAll | status | reservedB | reservedC | reservedD | reservedE | reservedF =>
    cases h
    simp [holdsIllegal_respond, IllegalIn]

/-- R135's reasons, read off the fields of the word. -/
theorem illegalIn_decode_iff (w : CmdWord) (s : State) :
    IllegalIn s (decode w) ↔
      0xB ≤ (opField w).toNat ∨
      (2 ≤ (opField w).toNat ∧ (opField w).toNat ≤ 8 ∧ s.params.numUnits ≤ (idxField w).toNat) ∨
      (opField w = 2#4 ∧ (typeReserved (aField w) = true ∨ typeAbsent s.params (aField w) = true)) := by
  rw [show opField w = 2#4 ↔ (opField w).toNat = 2 from BitVec.toNat_inj.symm]
  have hlt := (opField w).isLt
  unfold decode
  split
  case h_16 =>
    have hge : 0xB ≤ (opField w).toNat := by
      simp only [imp_false] at *
      omega
    simp [IllegalIn, hge]
  all_goals
    rename_i hn
    simp [IllegalIn, hn]

/-- Settles O4: decoding reads the used fields only, and the reasons for ILLEGAL are those of the decoded command. -/
theorem ignoredBitsAndIllegalWords : Obligations.IgnoredBitsAndIllegalWords := by
  refine ⟨fun w w' hop hpair hty hidx hcb => ?_, fun w s t h => ?_⟩
  · refine decode_congr hop (fun h1 => ?_) hty (fun h28 => ?_) (fun h23 => ?_)
    · simp only [uField_eq, dField_eq, hpair h1, and_self]
    · rw [idxField_eq, idxField_eq, hidx h28]
    · rw [cbField_eq, cbField_eq, hcb h23]
  · have hill := (holdsIllegal_exec_iff h).trans (illegalIn_decode_iff w s)
    rw [typeReserved_iff, typeAbsent_iff, toNat_idxField] at hill
    exact hill

end Sys2Proof.Machine
end

section
/-! The commands that show packed words: GET_DESC and EVENT_GET (42_registry.md R247, R248), STATUS (30_encoding.md R128). -/

namespace Sys2Proof.Machine

theorem execGetDesc_out {idx : Byte} {s : State} (h : s.params.numUnits ≤ idx.toNat) :
    execGetDesc idx s = raiseIllegal .indexRange s := withIndex_out h _

theorem execEventGet_out {idx : Byte} {s : State} (h : s.params.numUnits ≤ idx.toNat) :
    execEventGet idx s = raiseIllegal .indexRange s := withIndex_out h _

theorem execGetDesc_of_stored {idx : Byte} {s : State} {ty : BitVec 4} {cb : Bool} (hi : idx.toNat < s.params.numUnits)
    (hty : s.regs.desc_type[idx.toNat]? = some ty) (hcb : s.regs.desc_cb[idx.toNat]? = some cb) :
    execGetDesc idx s = .next (respond .ok (descWord cb ty) s) := by
  rw [execGetDesc, withIndex_in hi, memRead_eq_next.mpr hcb, andThen_next, memRead_eq_next.mpr hty, andThen_next]

theorem execEventGet_in {idx : Byte} {s : State} (hi : idx.toNat < s.params.numUnits) (h64 : idx.toNat < 64) :
    execEventGet idx s = .next (respond .ok (bitWord (eventBit s.regs.event_word idx.toNat)) s) := by
  rw [execEventGet, withIndex_in hi, eventRead_eq_next.mpr ⟨h64, rfl⟩, andThen_next]

/-- Settles O44: in range both arrays hold a value at the index, and the words are those of R127 and R248. -/
theorem getDescAndEventGet : Obligations.GetDescAndEventGet := by
  intro idx s hs h64
  refine ⟨fun hout => ⟨execGetDesc_out hout, execEventGet_out hout⟩, fun hi => ⟨?_, ?_⟩⟩
  · have hty := List.getElem?_eq_getElem (hs.desc_type.symm ▸ hi)
    have hcb := List.getElem?_eq_getElem (hs.desc_cb.symm ▸ hi)
    refine ⟨_, _, hty, hcb, ?_⟩
    rw [← descWord_eq]
    exact execGetDesc_of_stored hi hty hcb
  · rw [← bitWord_eq]
    exact execEventGet_in hi (Nat.lt_of_lt_of_le hi h64)

/-! ## R128's layout, field by field -/

theorem statusWord_rb_free (s : State) : (statusWord s).extractLsb' 8 8 = s.regs.rb_free := by
  apply BitVec.eq_of_getLsbD_eq
  intro i hi
  simp only [statusWord, BitVec.getLsbD_extractLsb', BitVec.getLsbD_append, hi, decide_true, Bool.true_and]
  iterate 7 rw [if_neg (by omega)]
  congr 1
  omega

theorem statusWord_rx_state (s : State) : (statusWord s).extractLsb' 0 2 = s.regs.rx_state :=
  BitVec.extractLsb'_append_eq_right

theorem statusWord_bits (s : State) :
    (statusWord s).getLsbD 7 = false ∧ (statusWord s).getLsbD 6 = decide (0 < s.params.rbCapacity) ∧
    (statusWord s).getLsbD 5 = s.regs.thr_full ∧ (statusWord s).getLsbD 4 = s.regs.tx_int_en ∧
    (statusWord s).getLsbD 3 = s.regs.mid_pair ∧ (statusWord s).getLsbD 2 = s.regs.wdt_armed := by
  simp only [statusWord, BitVec.getLsbD_append]
  simp

/-- Settles O47: the word is R128's, and without a queue R60's bound leaves 0 for rb_free. -/
theorem statusShowsControlState : Obligations.StatusShowsControlState := by
  intro s
  obtain ⟨h7, h6, h5, h4, h3, h2⟩ := statusWord_bits s
  refine ⟨statusWord s, rfl, statusWord_rb_free s, h7, h6, h5, h4, h3, h2, statusWord_rx_state s, fun hc hf => ?_⟩
  rw [statusWord_rb_free]
  exact BitVec.eq_of_toNat_eq (Nat.le_zero.mp (hc ▸ hf))

end Sys2Proof.Machine
end

section
/-! SUBMIT and TXE answered as equations, one per branch (40_transmit.md R162 to R170). -/

namespace Sys2Proof.Machine

/-! ## SUBMIT -/

theorem queuelessBusy_iff {s : State} : queuelessBusy s = true ↔ s.regs.thr_full = true ∨ s.regs.tx_int_en = true :=
  Bool.or_eq_true_iff

theorem queueFull_iff {s : State} : queueFull s = true ↔ s.regs.rb_free = 0 := decide_eq_true_iff

theorem exec_submit_queueless {s : State} (hc : s.params.rbCapacity = 0) (u d : Byte) :
    exec (.submit u d) s = submitQueueless u d s := if_pos hc

theorem exec_submit_buffered {s : State} (hc : 0 < s.params.rbCapacity) (u d : Byte) :
    exec (.submit u d) s = submitBuffered u d s := if_neg hc.ne'

theorem recordOutput_sized {s : State} (hl : s.regs.out_val.length = s.params.numUnits) (u d : Byte) :
    recordOutput u d s = .next { s with regs := { s.regs with
      out_val := if unitIndex u < s.params.numUnits then s.regs.out_val.set (unitIndex u) d else s.regs.out_val } } :=
  recordOutput_eq_next.mpr ⟨fun h => hl.symm ▸ h, rfl⟩

theorem submitQueueless_busy {s : State} (h : s.regs.thr_full = true ∨ s.regs.tx_int_en = true) (u d : Byte) :
    submitQueueless u d s = raiseFail .txBusy s := if_pos (queuelessBusy_iff.mpr h)

theorem submitQueueless_free {s : State} (hf : s.regs.thr_full = false) (he : s.regs.tx_int_en = false)
    (hl : s.regs.out_val.length = s.params.numUnits) (u d : Byte) :
    submitQueueless u d s = .next { s with
      regs := { s.regs with
        thr_byte := u, thr_full := true, second_byte := d, mid_pair := true, tx_int_en := true
        out_val := if unitIndex u < s.params.numUnits then s.regs.out_val.set (unitIndex u) d else s.regs.out_val }
      rsp_reg := some ⟨.ok, 0x0000⟩
      ports := { s.ports with tx := some u } } := by
  have hb : ¬ queuelessBusy s = true := by simp [queuelessBusy_iff, hf, he]
  rw [submitQueueless, if_neg hb, thrWrite_empty hf, andThen_next, recordOutput_sized, andThen_next]
  · rfl
  · exact hl

theorem submitBuffered_full {s : State} (h : s.regs.rb_free = 0) (u d : Byte) :
    submitBuffered u d s = raiseFail .queueFull s := if_pos (queueFull_iff.mpr h)

theorem submitBuffered_free {s : State} (hc : 0 < s.params.rbCapacity) (hs : Sized s)
    (ht : s.regs.rb_tail.toNat < s.params.rbCapacity) (hf : s.regs.rb_free ≠ 0) (u d : Byte) :
    submitBuffered u d s = .next { s with
      regs := { s.regs with
        rb_mem := s.regs.rb_mem.set s.regs.rb_tail.toNat (entryOf u d)
        rb_tail := ringNext s.params.rbCapacity s.regs.rb_tail
        rb_free := s.regs.rb_free - 1
        tx_int_en := true
        out_val := if unitIndex u < s.params.numUnits then s.regs.out_val.set (unitIndex u) d else s.regs.out_val }
      rsp_reg := some ⟨.ok, 0x0000⟩ } := by
  have hpos : 0 < s.regs.rb_free.toNat := Nat.pos_of_ne_zero fun h0 => hf (BitVec.eq_of_toNat_eq h0)
  rw [submitBuffered, if_neg (mt queueFull_iff.mp hf), enqueue_eq_next.mpr ⟨hc, hpos, hs.rb_mem.symm ▸ ht, rfl⟩, andThen_next,
    recordOutput_sized, andThen_next]
  · rfl
  · exact hs.out_val

/-- The output values after an accepted SUBMIT, index by index (R164). -/
theorem getElem?_recordedOutput {vals : List Byte} {j n : Nat} (hl : j < n → j < vals.length) (d : Byte) (i : Nat) :
    (if j < n then vals.set j d else vals)[i]? = if i = j ∧ i < n then some d else vals[i]? := by
  by_cases hij : i = j
  · subst hij
    by_cases hn : i < n
    · simp [hn, hl hn]
    · simp [hn]
  · have hset : (vals.set j d)[i]? = vals[i]? := List.getElem?_set_ne (Ne.symm hij)
    split <;> simp [hij, hset]

/-! ## TXE -/

theorem txe_queueless {s : State} (hc : s.params.rbCapacity = 0) : txe s = txeQueueless s := if_pos hc

theorem txe_buffered_mid {s : State} (hc : 0 < s.params.rbCapacity) (hm : s.regs.mid_pair = true) : txe s = txeSecondByte s := by
  rw [txe, if_neg hc.ne', if_pos hm]

theorem txe_buffered_not_mid {s : State} (hc : 0 < s.params.rbCapacity) (hm : s.regs.mid_pair = false) :
    txe s = if 0 < rbCount s then txeFirstByte s else txeIdle s := by
  rw [txe, if_neg hc.ne', if_neg (by simp [hm])]

theorem rbCount_pos_iff {s : State} : 0 < rbCount s ↔ s.regs.rb_free.toNat < s.params.rbCapacity := Nat.sub_pos_iff_lt

theorem rbCount_eq_zero_iff {s : State} (hle : s.regs.rb_free.toNat ≤ s.params.rbCapacity) :
    rbCount s = 0 ↔ s.regs.rb_free.toNat = s.params.rbCapacity := by
  rw [rbCount, Nat.sub_eq_zero_iff_le]
  exact ⟨hle.antisymm, Eq.ge⟩

theorem txeQueueless_mid {s : State} (hf : s.regs.thr_full = false) (hm : s.regs.mid_pair = true) :
    txeQueueless s = .next { s with
      regs := { s.regs with thr_full := true, thr_byte := s.regs.second_byte, mid_pair := false, tx_int_en := false }
      ports := { s.ports with tx := some s.regs.second_byte } } := by
  rw [txeQueueless, if_pos hm, thrWrite_empty hf, andThen_next]

theorem txeQueueless_not_mid {s : State} (hm : s.regs.mid_pair = false) : txeQueueless s = .fault .txeNotMidPair :=
  if_neg (by simp [hm])

theorem txeFirstByte_of_entry {s : State} {e : Word16} (hc : 0 < s.params.rbCapacity) (hf : s.regs.thr_full = false)
    (he : s.regs.rb_mem[s.regs.rb_head.toNat]? = some e) (hlt : s.regs.rb_free.toNat < s.params.rbCapacity) :
    txeFirstByte s = .next { s with
      regs := { s.regs with
        rb_head := ringNext s.params.rbCapacity s.regs.rb_head, rb_free := s.regs.rb_free + 1
        thr_full := true, thr_byte := entryUnit e, second_byte := entryData e, mid_pair := true }
      ports := { s.ports with tx := some (entryUnit e) } } := by
  rw [txeFirstByte, dequeue_eq_next.mpr ⟨hc, hlt, he, rfl⟩, andThen_next, thrWrite_empty, andThen_next]
  exact hf

theorem txeSecondByte_empty {s : State} (hf : s.regs.thr_full = false) :
    txeSecondByte s = .next { s with
      regs := { s.regs with
        thr_full := true, thr_byte := s.regs.second_byte, mid_pair := false
        tx_int_en := if rbCount s = 0 then false else s.regs.tx_int_en }
      ports := { s.ports with tx := some s.regs.second_byte } } := by
  rw [txeSecondByte, thrWrite_empty hf, andThen_next]

end Sys2Proof.Machine

/-! ## The statements

They stand in a namespace of their own: `Sys2Proof.Machine` holds the model's `submitQueueless`, `submitBuffered` and `txeQueueless`. -/

namespace Sys2Proof.Transmit

open Sys2Proof.Machine

/-- Settles O20: the busy and the free branch of the queueless SUBMIT. -/
theorem submitQueueless : Obligations.SubmitQueueless := by
  intro u d s hc hl
  rw [exec_submit_queueless hc]
  exact ⟨fun hb => submitQueueless_busy hb u d, fun hf he => submitQueueless_free hf he hl u d⟩

/-- Settles O21: the full and the free branch of the buffered SUBMIT. -/
theorem submitBuffered : Obligations.SubmitBuffered := by
  intro u d s hc hs ht
  rw [exec_submit_buffered hc]
  exact ⟨fun hb => submitBuffered_full hb u d, fun hf => submitBuffered_free hc hs ht hf u d⟩

/-- Settles O22: a SUBMIT that fails only answers, and either accepted one writes the output value where its unit has one. -/
theorem acceptedSubmitRecordsOutput : Obligations.AcceptedSubmitRecordsOutput := by
  intro u d s t h
  obtain (⟨-, -, rfl⟩ | ⟨-, -, rfl⟩) | ⟨-, -, -, hl, rfl⟩ | ⟨-, -, -, hl, rfl⟩ := execSubmit_cases h
  · exact ⟨nofun, fun _ => rfl⟩
  · exact ⟨nofun, fun _ => rfl⟩
  · exact ⟨fun _ => getElem?_recordedOutput hl d, fun hne => absurd rfl hne⟩
  · exact ⟨fun _ => getElem?_recordedOutput hl d, fun hne => absurd rfl hne⟩

/-- Settles O24: the two branches of the queueless TXE. -/
theorem txeQueueless : Obligations.TxeQueueless := by
  intro s hc hf
  rw [txe_queueless hc]
  exact ⟨txeQueueless_mid hf, txeQueueless_not_mid⟩

/-- Settles O25: the three branches of the buffered TXE, the queue's emptiness read off `rb_free`. -/
theorem txeBuffered : Obligations.TxeBuffered := by
  intro s e hc hf hle he
  refine ⟨fun hm hlt => ?_, fun hm heq => ?_, fun hm => ?_⟩
  · rw [txe_buffered_not_mid hc hm, if_pos (rbCount_pos_iff.mpr hlt)]
    exact txeFirstByte_of_entry hc hf he hlt
  · rw [txe_buffered_not_mid hc hm, if_neg (mt rbCount_pos_iff.mp heq.not_lt)]
    rfl
  · simp only [txe_buffered_mid hc hm, txeSecondByte_empty hf, rbCount_eq_zero_iff hle]

end Sys2Proof.Transmit
end

section
/-! The registry and event commands that write (42_registry.md R240 to R244, R249, R250, R254), with NOP and the reserved opcodes, answered
as equations, one per branch. -/

namespace Sys2Proof.Machine

/-- Settles O49: turned away, both commands only answer; accepted, they set one place of the two descriptor arrays. -/
theorem registryCommandsKeepStorage : Obligations.RegistryCommandsKeepStorage := by
  intro i s t idx hi h
  obtain ⟨ty, cb, rfl⟩ | ⟨cb, rfl⟩ := hi
  · obtain ⟨c, rfl, -⟩ | ⟨-, -, -, -, -, rfl⟩ := execRegister_cases h
    · exact ⟨rfl, fun _ _ => ⟨rfl, rfl⟩⟩
    · exact ⟨rfl, fun _ hj => ⟨List.getElem?_set_ne hj.symm, List.getElem?_set_ne hj.symm⟩⟩
  · obtain ⟨-, rfl⟩ | ⟨-, -, rfl⟩ := execSetCallback_cases h
    · exact ⟨rfl, fun _ _ => ⟨rfl, rfl⟩⟩
    · exact ⟨rfl, fun _ hj => ⟨rfl, List.getElem?_set_ne hj.symm⟩⟩

theorem memWrite_of_lt {α : Type} {a : List α} {i : Nat} (h : i < a.length) (v : α) : memWrite a i v = .next (a.set i v) :=
  memWrite_eq_next.mpr ⟨h, rfl⟩

/-! ## REGISTER: the three causes, in the order they are tested, and the store -/

theorem execRegister_out {idx : Byte} {s : State} (hi : s.params.numUnits ≤ idx.toNat) (ty : BitVec 4) (cb : Bool) :
    execRegister idx ty cb s = raiseIllegal .indexRange s := withIndex_out hi _

theorem execRegister_reserved {idx : Byte} {ty : BitVec 4} {s : State} (hi : idx.toNat < s.params.numUnits)
    (hr : typeReserved ty = true) (cb : Bool) : execRegister idx ty cb s = raiseIllegal .reservedType s := by
  rw [execRegister, withIndex_in hi, if_pos hr]

theorem execRegister_absent {idx : Byte} {ty : BitVec 4} {s : State} (hi : idx.toNat < s.params.numUnits)
    (hr : ¬ typeReserved ty = true) (ha : typeAbsent s.params ty = true) (cb : Bool) :
    execRegister idx ty cb s = raiseIllegal .typeAbsent s := by
  rw [execRegister, withIndex_in hi, if_neg hr, if_pos ha]

theorem execRegister_legal {idx : Byte} {ty : BitVec 4} {s : State} (hs : Sized s) (hi : idx.toNat < s.params.numUnits)
    (hr : ¬ typeReserved ty = true) (ha : ¬ typeAbsent s.params ty = true) (cb : Bool) :
    execRegister idx ty cb s = .next { s with
      regs := { s.regs with desc_type := s.regs.desc_type.set idx.toNat ty, desc_cb := s.regs.desc_cb.set idx.toNat cb }
      rsp_reg := some ⟨.ok, 0x0000⟩ } := by
  have hty : idx.toNat < s.regs.desc_type.length := hs.desc_type.symm ▸ hi
  have hcb : idx.toNat < s.regs.desc_cb.length := hs.desc_cb.symm ▸ hi
  rw [execRegister, withIndex_in hi, if_neg hr, if_neg ha, memWrite_of_lt hty, andThen_next, memWrite_of_lt hcb, andThen_next]
  rfl

/-- Settles O41: an absent type is Ack or Error, hence no reserved code, so each clause is one branch. -/
theorem registerStoresDescriptor : Obligations.RegisterStoresDescriptor := by
  intro idx ty cb s hs
  refine ⟨fun hout => execRegister_out hout ty cb, fun hi h10 => execRegister_reserved hi (typeReserved_iff.mpr h10) cb,
    fun hi ha => ?_, fun hi h10 hack herr => ?_⟩
  · have hr : ¬ typeReserved ty = true := by
      obtain ⟨rfl, -⟩ | ⟨rfl, -⟩ := ha <;> decide
    exact execRegister_absent hi hr (typeAbsent_iff.mpr ha) cb
  · have ha : ¬ typeAbsent s.params ty = true := by
      rw [typeAbsent_iff]
      rintro (⟨hty, hno⟩ | ⟨hty, hno⟩)
      · exact Bool.false_ne_true (hno.symm.trans (hack hty))
      · exact Bool.false_ne_true (hno.symm.trans (herr hty))
    exact execRegister_legal hs hi (mt typeReserved_iff.mp h10.not_ge) ha cb

/-! ## SET_CALLBACK -/

theorem execSetCallback_out {idx : Byte} {s : State} (hi : s.params.numUnits ≤ idx.toNat) (cb : Bool) :
    execSetCallback idx cb s = raiseIllegal .indexRange s := withIndex_out hi _

theorem execSetCallback_in {idx : Byte} {s : State} (hs : Sized s) (hi : idx.toNat < s.params.numUnits) (cb : Bool) :
    execSetCallback idx cb s = .next { s with
      regs := { s.regs with desc_cb := s.regs.desc_cb.set idx.toNat cb }
      rsp_reg := some ⟨.ok, 0x0000⟩ } := by
  have hcb : idx.toNat < s.regs.desc_cb.length := hs.desc_cb.symm ▸ hi
  rw [execSetCallback, withIndex_in hi, memWrite_of_lt hcb, andThen_next]
  rfl

/-- Settles O42: the range test, and the store behind it. -/
theorem setCallbackStoresFlag : Obligations.SetCallbackStoresFlag :=
  fun _ cb _ hs => ⟨fun hout => execSetCallback_out hout cb, fun hi => execSetCallback_in hs hi cb⟩

/-! ## EVENT_CLEAR, EVENT_CLEAR_ALL -/

theorem execEventClear_out {idx : Byte} {s : State} (hi : s.params.numUnits ≤ idx.toNat) :
    execEventClear idx s = raiseIllegal .indexRange s := withIndex_out hi _

theorem execEventClear_in {idx : Byte} {s : State} (hi : idx.toNat < s.params.numUnits) (h64 : idx.toNat < 64) :
    execEventClear idx s = .next { s with
      regs := { s.regs with event_word := withEventBit s.regs.event_word idx.toNat false }
      rsp_reg := some ⟨.ok, 0x0000⟩ } := by
  rw [execEventClear, withIndex_in hi, eventWrite_eq_next.mpr ⟨h64, rfl⟩, andThen_next]
  rfl

/-- Settles O45: the word that EVENT_CLEAR leaves is `withEventBit`'s, whose bits `getLsbD_withEventBit` gives. -/
theorem eventClears : Obligations.EventClears := by
  intro idx s hn
  refine ⟨execEventClear_out, fun hi => ?_, rfl⟩
  have h64 : idx.toNat < 64 := Nat.lt_of_lt_of_le hi hn
  refine ⟨_, fun j => ?_, execEventClear_in hi h64⟩
  rw [getLsbD_withEventBit _ h64]
  split <;> simp [*]

/-! ## NOP and the reserved opcodes -/

/-- Settles O46: NOP's answer, and the one of each reserved opcode, is its whole definition (R241, R252). -/
theorem nopAndReservedOpcodes : Obligations.NopAndReservedOpcodes := by
  refine fun s => ⟨rfl, fun i hi => ?_⟩
  obtain rfl | rfl | rfl | rfl | rfl := hi <;> rfl

end Sys2Proof.Machine
end

section
/-! A cleared event bit stays clear until a dispatch to its unit, in any order of events (42_registry.md R255; 60_exceptions.md R302). -/

namespace Sys2Proof.Machine

theorem params_eventStep {e : Event} {s t : State} (h : eventStep e s = .next t) : t.params = s.params := by
  cases e with
  | reset => cases h; rfl
  | drain => cases h; rfl
  | txe => exact params_txe h
  | host w => exact params_exec h
  | rxc b => exact params_rxc h
  | tick => exact params_tick h

/-- RXC raises the event bit of the unit it dispatches to and changes no other. -/
theorem rxc_event_bit_of_not_dispatchesTo {i : Nat} {b : RxByte} {s t : State} (hno : ¬ DispatchesTo i (.rxc b) s)
    (h : rxc b.data (rxErr b) s = .next t) : t.regs.event_word.getLsbD i = s.regs.event_word.getLsbD i := by
  obtain ⟨hx, he, hd⟩ | ⟨-, heq⟩ := rxc_dispatches_or_rests h
  · exact (dispatch_event_bit hd i).2 fun hu => hno ⟨hx, hu.1, b, rfl, he⟩
  · rw [heq]

/-- Only a dispatch to unit i raises its event bit (R253): every other event, a reset among them, leaves a clear bit clear. -/
theorem eventStep_keeps_clear_bit {i : Nat} {e : Event} {s t : State} (hno : ¬ DispatchesTo i e s)
    (h : eventStep e s = .next t) (h0 : s.regs.event_word.getLsbD i = false) : t.regs.event_word.getLsbD i = false := by
  cases e with
  | reset => cases h; exact BitVec.getLsbD_zero
  | drain => cases h; exact h0
  | txe =>
    have hw : t.regs.event_word = s.regs.event_word := congrArg ReceiveView.event_word (receiveView_txe h)
    rw [hw, h0]
  | host w =>
    obtain ⟨-, -, hbits⟩ := exec_event_bits h
    obtain heq | ⟨hz, -⟩ := hbits i
    · exact heq.trans h0
    · exact hz
  | rxc b => exact (rxc_event_bit_of_not_dispatchesTo hno h).trans h0
  | tick =>
    obtain ⟨-, rfl⟩ | ⟨-, -, rfl⟩ | ⟨-, -, rfl⟩ := tick_cases h <;> exact h0

/-- The parameters and a clear bit, kept through any events none of which is a dispatch to the bit's unit. -/
theorem ReachesWithoutDispatch.keeps_clear_bit {i : Nat} {s t : State} (h : ReachesWithoutDispatch i s t)
    (h0 : s.regs.event_word.getLsbD i = false) : t.params = s.params ∧ t.regs.event_word.getLsbD i = false := by
  induction h with
  | refl => exact ⟨rfl, h0⟩
  | tail _ hstep ih =>
    obtain ⟨hp, hbit⟩ := ih
    obtain ⟨e, -, he, hno⟩ := hstep
    exact ⟨(params_eventStep he).trans hp, eventStep_keeps_clear_bit hno he hbit⟩

theorem execEventClear_clears {idx : Byte} {s t : State} (hi : idx.toNat < s.params.numUnits)
    (h : execEventClear idx s = .next t) : idx.toNat < 64 ∧ t.regs.event_word.getLsbD idx.toNat = false := by
  obtain ⟨hout, -⟩ | ⟨-, h64, rfl⟩ := execEventClear_cases h
  · exact absurd hi hout.not_gt
  · refine ⟨h64, ?_⟩
    rw [getLsbD_withEventBit _ h64, if_pos rfl]

/-- Clearing a clear bit leaves the word as it is. -/
theorem withEventBit_false_of_clear {w : BitVec 64} {i : Nat} (hi : i < 64) (h0 : w.getLsbD i = false) :
    withEventBit w i false = w := by
  apply BitVec.eq_of_getLsbD_eq
  intro j _
  rw [getLsbD_withEventBit w hi]
  split
  · rename_i hj
    rw [hj, h0]
  · rfl

/-- Settles O50: EVENT_CLEAR leaves its bit clear, the events between keep it so, and EVENT_GET shows it. -/
theorem eventClearIsIdempotent : Obligations.EventClearIsIdempotent := by
  refine ⟨fun idx s s1 s2 s3 hi hclear hreach hget => ?_, fun idx s t h0 h => ?_⟩
  · obtain ⟨h64, h0⟩ := execEventClear_clears hi hclear
    obtain ⟨hp, hbit⟩ := hreach.keeps_clear_bit h0
    have hi2 : idx.toNat < s2.params.numUnits := by rw [hp, params_exec hclear]; exact hi
    obtain rfl := Host.Outcome.next.inj ((execEventGet_in hi2 h64).symm.trans hget)
    rw [respond_rsp_reg, eventBit, hbit]
    rfl
  · obtain ⟨-, rfl⟩ | ⟨-, h64, rfl⟩ := execEventClear_cases h
    · rfl
    · simp only [withEventBit_false_of_clear h64 h0]

end Sys2Proof.Machine
end

section
/-! Every cycle and every run keeps the invariants and goes on, and no cycle loses a byte in flight: the cycle's and the run's lemmas
(10_state.md section 7; 40_transmit.md section 4). -/

namespace Sys2Proof.Machine

/-- Settles O10: each phase of a cycle keeps the invariants, and a reset establishes them. -/
theorem stepKeepsInvariants : Obligations.StepKeepsInvariants := fun _ _ _ => inv_step

/-- Settles O11: a cycle from a state with the invariants completes and keeps them, so by induction any number of cycles does. -/
theorem everyRunGoesOn : Obligations.EveryRunGoesOn := by
  intro k s hi
  obtain ⟨t, h⟩ := run_goes k hi
  exact ⟨t, h, run_keeps_inv hi h⟩

/-- Settles O27: DRAIN, TXE and SUBMIT move the bytes one place on, and the receive path touches none. -/
theorem cycleConservesBytesInFlight : Obligations.CycleConservesBytesInFlight :=
  fun _ _ hi hr h => (step_moves hi hr h).2

/-- Settles O14: no phase of a cycle writes the parameters or the inputs, and the cycle's beginning takes one entry. -/
theorem parametersNeverChange : Obligations.ParametersNeverChange :=
  fun _ _ h => ⟨params_step h, inputs_step h⟩

end Sys2Proof.Machine
end

section
/-! Decoding and encoding are inverse up to the ignored bits (30_encoding.md R131, R135, R136, R145). -/

namespace Sys2Proof

theorem idxField_packWord_indexByte {idx : Byte} (h : sixBitIndex idx = true) (op a : BitVec 4) (d : Byte) :
    idxField (packWord op a (indexByte idx) d) = idx := by
  rw [idxField, uField_packWord, setWidth_indexByte h]

theorem cbField_packWord_flagByte (op a : BitVec 4) (u : Byte) (cb : Bool) :
    cbField (packWord op a u (flagByte cb)) = cb := by
  rw [cbField, dField_packWord, getLsbD_flagByte]

/-- A well-formed command survives encoding and decoding: its opcode selects its row, and each operand stands in its field. -/
theorem decode_encode {i : Instr} (h : i.wellFormed = true) : decode (encode i) = i := by
  cases i with
  | submit u d => simp [encode, decode, opField_packWord, uField_packWord, dField_packWord]
  | register idx t cb =>
    simp [encode, decode, opField_packWord, aField_packWord, idxField_packWord_indexByte h, cbField_packWord_flagByte]
  | setCallback idx cb => simp [encode, decode, opField_packWord, idxField_packWord_indexByte h, cbField_packWord_flagByte]
  | getInput idx | getOutput idx | getDesc idx | eventGet idx | eventClear idx =>
    simp [encode, decode, opField_packWord, idxField_packWord_indexByte h]
  | nop | eventClearAll | status | reservedB | reservedC | reservedD | reservedE | reservedF =>
    simp [encode, decode, opField_packWord]

/-- Settles O1: `decode_encode`, and what was decoded is the well-formed command itself. -/
theorem decodeEncodeAgree : Obligations.DecodeEncodeAgree :=
  fun _ h => ⟨decode_encode h, (decode_encode h).symm ▸ h⟩

/-! ## Masks, field by field -/

/-- A word is its four fields. -/
theorem packWord_fields (w : CmdWord) : packWord (opField w) (aField w) (uField w) (dField w) = w := by
  apply BitVec.eq_of_getLsbD_eq
  intro i hi
  simp only [packWord, opField, aField, uField, dField, BitVec.getLsbD_append, BitVec.getLsbD_extractLsb']
  split
  · simp [*]
  · split
    · simp [*, show 8 + (i - 8) = i by omega]
    · split
      · simp [*, show 16 + (i - 8 - 8) = i by omega]
      · simp [show i - 8 - 8 - 4 < 4 by omega, show 20 + (i - 8 - 8 - 4) = i by omega]

/-- Masking a word masks its fields. -/
theorem and_packWord (w : CmdWord) (op a : BitVec 4) (u d : Byte) :
    w &&& packWord op a u d = packWord (opField w &&& op) (aField w &&& a) (uField w &&& u) (dField w &&& d) := by
  conv_lhs => rw [← packWord_fields w]
  unfold packWord
  rw [← BitVec.and_append, ← BitVec.and_append, ← BitVec.and_append]

/-- The index that the decoder takes from U, written again, is U without its mode bits. -/
theorem indexByte_idxField (w : CmdWord) : indexByte (idxField w) = uField w &&& 0x3F := by
  rw [idxField]
  generalize uField w = u
  revert u
  decide

/-- The flag that the decoder takes from D, written again, is D without D[7:1]. -/
theorem flagByte_cbField (w : CmdWord) : flagByte (cbField w) = dField w &&& 0x01 := by
  rw [cbField]
  generalize dField w = d
  revert d
  decide

/-- A word with the opcode op, masked to some bits of its other fields. -/
theorem and_packWord_of_op {w : CmdWord} {op : BitVec 4} (h : (opField w).toNat = op.toNat) (a : BitVec 4) (u d : Byte) :
    w &&& packWord 0xF a u d = packWord op (aField w &&& a) (uField w &&& u) (dField w &&& d) := by
  rw [and_packWord, BitVec.eq_of_toNat_eq h]
  exact congrArg (packWord · _ _ _) BitVec.and_allOnes

/-! ## The masks of R132's rows -/

theorem and_submitMask {w : CmdWord} (h : (opField w).toNat = 1) :
    w &&& packWord 0xF 0 0xFF 0xFF = encode (.submit (uField w) (dField w)) := by
  have ones : ∀ b : Byte, b &&& 0xFF = b := fun _ => BitVec.and_allOnes
  rw [and_packWord_of_op (op := 1) h, ones, ones]
  exact congrArg (packWord 1 · _ _) BitVec.and_zero

theorem and_registerMask {w : CmdWord} (h : (opField w).toNat = 2) :
    w &&& packWord 0xF 0xF 0x3F 0x01 = encode (.register (idxField w) (aField w) (cbField w)) := by
  rw [and_packWord_of_op (op := 2) h, ← indexByte_idxField, ← flagByte_cbField]
  exact congrArg (packWord 2 · _ _) BitVec.and_allOnes

theorem and_callbackMask {w : CmdWord} (h : (opField w).toNat = 3) :
    w &&& packWord 0xF 0 0x3F 0x01 = encode (.setCallback (idxField w) (cbField w)) := by
  rw [and_packWord_of_op (op := 3) h, ← indexByte_idxField, ← flagByte_cbField]
  exact congrArg (packWord 3 · _ _) BitVec.and_zero

theorem and_indexedMask {w : CmdWord} {op : BitVec 4} (h : (opField w).toNat = op.toNat) :
    w &&& packWord 0xF 0 0x3F 0 = packWord op 0 (indexByte (idxField w)) 0 := by
  rw [and_packWord_of_op h, ← indexByte_idxField]
  exact congrArg₂ (packWord op · _ ·) BitVec.and_zero BitVec.and_zero

theorem and_plainMask {w : CmdWord} {op : BitVec 4} (h : (opField w).toNat = op.toNat) :
    w &&& packWord 0xF 0 0 0 = packWord op 0 0 0 := by
  rw [and_packWord_of_op h]
  simp

/-- The fields that each opcode of R132 uses, as a mask (R135). -/
def usedMask : Nat → CmdWord
  | 0x1 => packWord 0xF 0 0xFF 0xFF
  | 0x2 => packWord 0xF 0xF 0x3F 0x01
  | 0x3 => packWord 0xF 0 0x3F 0x01
  | 0x4 | 0x5 | 0x6 | 0x7 | 0x8 => packWord 0xF 0 0x3F 0
  | _   => packWord 0xF 0 0 0

/-- Row by row: a command's word has the opcode and the used fields of the word it was decoded from, and zero elsewhere. -/
theorem encode_decode (w : CmdWord) : encode (decode w) = w &&& usedMask (opField w).toNat := by
  have hlt := (opField w).isLt
  unfold decode
  split
  case h_2 hn => rw [hn]; exact (and_submitMask hn).symm
  case h_3 hn => rw [hn]; exact (and_registerMask hn).symm
  case h_4 hn => rw [hn]; exact (and_callbackMask hn).symm
  case h_5 hn | h_6 hn | h_7 hn | h_8 hn | h_9 hn => rw [hn]; exact (and_indexedMask hn).symm
  case h_1 hn | h_10 hn | h_11 hn | h_12 hn | h_13 hn | h_14 hn | h_15 hn => rw [hn]; exact (and_plainMask hn).symm
  case h_16 =>
    have hn : (opField w).toNat = 0xF := by
      simp only [imp_false] at *
      omega
    rw [hn]; exact (and_plainMask hn).symm

/-- Settles O2: the masks of the statement are the used fields, written out. -/
theorem encodeDecodeZeroesIgnoredBits : Obligations.EncodeDecodeZeroesIgnoredBits := by
  have words : packWord 0xF 0 0xFF 0xFF = 0xF0FFFF#24 ∧ packWord 0xF 0xF 0x3F 0x01 = 0xFF3F01#24 ∧
      packWord 0xF 0 0x3F 0x01 = 0xF03F01#24 ∧ packWord 0xF 0 0x3F 0 = 0xF03F00#24 ∧ packWord 0xF 0 0 0 = 0xF00000#24 := by decide
  obtain ⟨hsubmit, hregister, hcallback, hindexed, hplain⟩ := words
  intro w
  rw [← hsubmit, ← hregister, ← hcallback, ← hindexed, ← hplain]
  exact encode_decode w

/-- Settles O3: decoding is executable, and the words are 24-bit literals (95_test_vectors.md sections 0 and 2). -/
theorem specWordsDecode : Obligations.SpecWordsDecode := by
  unfold Obligations.SpecWordsDecode
  decide

end Sys2Proof
end

section
/-! Where a cycle stops, and the reset cycle (00_scope.md R12; 10_state.md section 7; 70_reset_and_hazards.md R330 to R332;
93_implementation_defined.md U1). -/

namespace Sys2Proof.Machine

/-! ## Refusals and faults -/

theorem step_of_illegal {s : State} (h : ¬ LegalParams s.params) : step s = .refused .illegalParameters :=
  if_neg (mt paramsLegal_iff.mp h)

theorem step_of_broken {s : State} (hp : LegalParams s.params) (hr : (nextInput s).rst = false) (hi : ¬ Inv s) :
    ∃ f, step s = .fault f := by
  cases hg : brokenInvariant s with
  | none => exact absurd (inv_iff.mpr ⟨hp, hg⟩) hi
  | some f => exact ⟨f, by simp [step, cycle, paramsLegal_iff.mpr hp, hr, hg]⟩

/-- With legal parameters a cycle answers a next state or faults: it resets, finds an invariant broken, or completes. -/
theorem step_of_legal {s : State} (hp : LegalParams s.params) : (∃ t, step s = .next t) ∨ ∃ f, step s = .fault f := by
  cases hr : (nextInput s).rst with
  | true => exact .inl ⟨_, step_reset hp hr⟩
  | false =>
    by_cases hi : Inv s
    · exact .inl (step_goes hi)
    · exact .inr (step_of_broken hp hr hi)

theorem step_eq_refused_iff {s : State} : step s = .refused .illegalParameters ↔ ¬ LegalParams s.params := by
  refine ⟨fun h hp => ?_, step_of_illegal⟩
  obtain ⟨t, ht⟩ | ⟨f, hf⟩ := step_of_legal hp
  · rw [ht] at h; cases h
  · rw [hf] at h; cases h

theorem legalParams_iff {p : Params} :
    LegalParams p ↔ p.rbCapacity % 2 = 0 ∧ p.rbCapacity ≤ 254 ∧ 1 ≤ p.numUnits ∧ p.numUnits ≤ 64 ∧
      1 ≤ p.wdtTicks ∧ p.wdtTicks ≤ 65535 :=
  ⟨fun ⟨h1, h2, h3, h4, h5, h6⟩ => ⟨h1, h2, h3, h4, h5, h6⟩, fun ⟨h1, h2, h3, h4, h5, h6⟩ => ⟨h1, h2, h3, h4, h5, h6⟩⟩

/-- Settles O6: illegal parameters are refused before anything else, and legal ones never. -/
theorem illegalParametersRefused : Obligations.IllegalParametersRefused := by
  intro s
  rw [step_eq_refused_iff, legalParams_iff]

/-- Settles O7: where the invariants hold the cycle completes, and where one is broken the guard stops it. -/
theorem brokenInvariantFaults : Obligations.BrokenInvariantFaults := by
  refine fun s hp hr => ⟨fun ⟨f, hf⟩ hi => ?_, step_of_broken hp hr⟩
  obtain ⟨t, ht⟩ := step_goes hi
  rw [ht] at hf
  cases hf

/-! ## Reset -/

/-- The input of a cycle that starts with the entry c. -/
theorem nextInput_of_cons {s : State} {c : CycleInput} {rest : List CycleInput} (h : s.inputs = c :: rest) : nextInput s = c := by
  rw [nextInput, h]
  rfl

/-- The reset value of rb_free (R330): the capacity fits into the register. -/
theorem reset_rb_free_toNat {p : Params} (hp : LegalParams p) : (Regs.reset p).rb_free.toNat = p.rbCapacity := by
  have hle := hp.cap_le
  exact (BitVec.toNat_ofNat _ _).trans (Nat.mod_eq_of_lt (by omega))

/-- Settles O8: with legal parameters a reset cycle is `resetCycle`, which writes R330's values. -/
theorem resetCycleLeavesResetValues : Obligations.ResetCycleLeavesResetValues := by
  intro s c rest hp hin hrst
  obtain rfl := nextInput_of_cons hin
  have hrest : (resetCycle s).inputs = rest := by simp [hin]
  refine ⟨_, step_reset hp hrst, rfl, rfl, rfl, rfl, rfl, rfl, rfl, rfl, rfl, rfl, reset_rb_free_toNat hp, ?_⟩
  exact ⟨rfl, rfl, rfl, rfl, rfl, rfl, rfl, rfl, rfl, rfl, rfl, rfl, rfl, rfl, rfl, hrest⟩

theorem typesLegal_resetOf (p : Params) (ins : List CycleInput) : TypesLegal (State.resetOf p ins) := by
  intro ty hty
  rw [List.eq_of_mem_replicate hty]
  decide

theorem legalParams_default : LegalParams Config.defaultParams := paramsLegal_iff.mp rfl

/-- Settles O9: `inv_resetOf`, for all legal parameters and so for the default ones; every reset type is Undefined. -/
theorem resetMeetsInvariants : Obligations.ResetMeetsInvariants :=
  ⟨fun p ins hp => ⟨inv_resetOf hp ins, typesLegal_resetOf p ins⟩, inv_resetOf legalParams_default [], typesLegal_resetOf _ []⟩

end Sys2Proof.Machine
end

section
/-! A cycle as a sequence of steps (60_exceptions.md R300), of which each is an enabled event of the interleaving relaxation (R302). -/

namespace Sys2Proof.Machine

/-! ## The sequence of R300 -/

/-- A cycle whose only input is a word, with TXE not enabled, is the command. -/
theorem runCycle_commandInput {s : State} (hen : txeEnabled s = false) (w : CmdWord) :
    runCycle (commandInput w) s = exec (decode w) s := by
  have htx : transmitPhase (commandInput w) s = .next s := if_neg (by simpa [drainPhase, commandInput, CycleInput.idle] using hen)
  rw [runCycle, htx, andThen_next]
  exact andThen_pure _

/-- The command that the decoder reads from a row of bits is the one that the block decodes from the presented word. -/
theorem decode_of_decodeTableWord {nbits w : Nat} {i : Instr} (h : decodeTableWord nbits w = some i) :
    decode (BitVec.ofNat 24 (w % 2 ^ nbits)) = i := by
  unfold decodeTableWord decodeBits at h
  split at h
  · rename_i hw
    obtain ⟨-, hlt⟩ := hw
    rw [Nat.mod_eq_of_lt hlt]
    exact Option.some.inj h
  · cases h

/-- Settles O5: `runCycle` is R300's sequence, and a word presented alone leaves of it the command. -/
theorem stepRunsThePresentedCommand : Obligations.StepRunsThePresentedCommand := by
  refine ⟨fun s c rest hi hin hr s1 hs1 => ?_, fun s nbits w i hi hidle hw => ?_⟩
  · obtain rfl := nextInput_of_cons hin
    have hdrain : drainPhase (nextInput s) (beginCycle s) = s1 := by
      rw [hs1]
      simp [drainPhase]
    have htxe : txePhase s1 = if s1.regs.tx_int_en = true ∧ s1.regs.thr_full = false then txe s1 else .next s1 := by
      simp [txePhase, txeEnabled, txReady]
    rw [step_run hi hr, runCycle, transmitPhase, hdrain, htxe]
    rfl
  · have hi' : Inv (s.withFetchWord nbits w) := hi.congr rfl rfl
    rw [step_run hi' rfl]
    have hen : txeEnabled (beginCycle (s.withFetchWord nbits w)) = false := by
      obtain h | h := hidle <;> simp [txeEnabled, txReady, State.withFetchWord, h]
    refine (runCycle_commandInput hen _).trans ?_
    rw [decode_of_decodeTableWord hw]
    rfl

/-! ## The relaxation -/

theorem relaxedReaches_of_event {e : Event} {s t : State} (hen : eventEnabled e s = true) (h : eventStep e s = .next t) :
    RelaxedReaches s t := .single ⟨e, hen, h⟩

theorem relaxedReaches_drainPhase (c : CycleInput) (s : State) : RelaxedReaches s (drainPhase c s) := by
  unfold drainPhase
  split
  · rename_i h
    exact relaxedReaches_of_event (e := .drain) (Bool.and_eq_true_iff.mp h).2 rfl
  · exact .refl

theorem relaxedReaches_txePhase {s t : State} (h : txePhase s = .next t) : RelaxedReaches s t := by
  unfold txePhase at h
  split at h
  · rename_i hen
    exact relaxedReaches_of_event (e := .txe) hen h
  · cases h; exact .refl

theorem relaxedReaches_hostPhase {c : CycleInput} {s t : State} (h : hostPhase c s = .next t) : RelaxedReaches s t := by
  unfold hostPhase at h
  split at h
  · rename_i w _
    exact relaxedReaches_of_event (e := .host w) rfl h
  · cases h; exact .refl

theorem relaxedReaches_rxPhase {c : CycleInput} {s t : State} (h : rxPhase c s = .next t) : RelaxedReaches s t := by
  unfold rxPhase at h
  split at h
  · rename_i b _
    exact relaxedReaches_of_event (e := .rxc b) rfl h
  · cases h; exact .refl

theorem relaxedReaches_tickPhase {c : CycleInput} {s t : State} (h : tickPhase c s = .next t) : RelaxedReaches s t := by
  unfold tickPhase at h
  split at h
  · exact relaxedReaches_of_event (e := .tick) rfl h
  · cases h; exact .refl

theorem relaxedReaches_of_step {s t : State} (h : step s = .next t) : RelaxedReaches (beginCycle s) t := by
  obtain ⟨-, ⟨-, rfl⟩ | ⟨-, -, s1, s2, s3, h1, h2, h3, h4⟩⟩ := step_eq_next.mp h
  · exact relaxedReaches_of_event (e := .reset) rfl rfl
  · exact (relaxedReaches_drainPhase _ _).trans <| (relaxedReaches_txePhase h1).trans <| (relaxedReaches_hostPhase h2).trans <|
      (relaxedReaches_rxPhase h3).trans (relaxedReaches_tickPhase h4)

/-- An enabled event completes where the invariants hold, and keeps them. -/
theorem eventStep_goes {e : Event} {s : State} (hi : Inv s) (hen : eventEnabled e s = true) :
    ∃ t, eventStep e s = .next t ∧ Inv t := by
  cases e with
  | reset => exact ⟨_, rfl, inv_resetOf hi.legal _⟩
  | drain => exact ⟨_, rfl, inv_drain hi⟩
  | txe =>
    obtain ⟨t, h⟩ := txe_goes hi hen
    exact ⟨t, h, inv_txe hi (Bool.and_eq_true_iff.mp hen).1 h⟩
  | host w =>
    obtain ⟨t, h⟩ := exec_goes hi (decode w)
    exact ⟨t, h, inv_exec hi h⟩
  | rxc b =>
    obtain ⟨t, h⟩ := rxc_goes hi b.data (rxErr b)
    exact ⟨t, h, inv_rxc hi h⟩
  | tick =>
    obtain ⟨t, h⟩ := tick_goes hi
    exact ⟨t, h, inv_tick hi h⟩

/-- Settles O15: each phase of a cycle is one enabled event or none, and an enabled event completes. -/
theorem relaxedMachineCoversCycle : Obligations.RelaxedMachineCoversCycle :=
  ⟨fun _ _ => relaxedReaches_of_step, fun _ _ => eventStep_goes⟩

end Sys2Proof.Machine
end

section
/-! What the three parts of a cycle may write (10_state.md R50's column "written by"; 00_scope.md section 6): each part's result is the
state before it but for the named elements, as one equation. -/

namespace Sys2Proof.Machine

/-- s, with u's values of what TXE and DRAIN write. -/
def withTransmit (u s : State) : State :=
  { s with
    regs := { s.regs with
      tx_int_en := u.regs.tx_int_en, mid_pair := u.regs.mid_pair, second_byte := u.regs.second_byte
      rb_head := u.regs.rb_head, rb_free := u.regs.rb_free, thr_full := u.regs.thr_full, thr_byte := u.regs.thr_byte }
    ports := { s.ports with tx := u.ports.tx, wire := u.ports.wire } }

/-- s, with u's values of what a command writes. -/
def withCommand (u s : State) : State :=
  { s with
    regs := { s.regs with
      tx_int_en := u.regs.tx_int_en, mid_pair := u.regs.mid_pair, second_byte := u.regs.second_byte
      rb_mem := u.regs.rb_mem, rb_tail := u.regs.rb_tail, rb_free := u.regs.rb_free
      desc_type := u.regs.desc_type, desc_cb := u.regs.desc_cb, out_val := u.regs.out_val, event_word := u.regs.event_word
      thr_full := u.regs.thr_full, thr_byte := u.regs.thr_byte }
    rsp_reg := u.rsp_reg
    ports := { s.ports with tx := u.ports.tx } }

/-- s, with u's values of what RXC and TICK write. -/
def withReceive (u s : State) : State :=
  { s with
    regs := { s.regs with
      rx_state := u.regs.rx_state, pending_unit := u.regs.pending_unit, wdt_armed := u.regs.wdt_armed
      wdt_count := u.regs.wdt_count, in_val := u.regs.in_val, event_word := u.regs.event_word }
    cb_reg := u.cb_reg
    ports := { s.ports with drops := u.ports.drops } }

/-- t is s but for what TXE and DRAIN write. -/
def TransmitOnly (s t : State) : Prop := t = withTransmit t s

/-- t is s but for what a command writes. -/
def CommandOnly (s t : State) : Prop := t = withCommand t s

/-- t is s but for what RXC and TICK write. -/
def ReceiveOnly (s t : State) : Prop := t = withReceive t s

/-- A field that is none of those taken over is unchanged: the right side computes to s's. -/
theorem TransmitOnly.field {α : Type} {s t : State} (h : TransmitOnly s t) (f : State → α) : f t = f (withTransmit t s) := congrArg f h

theorem CommandOnly.field {α : Type} {s t : State} (h : CommandOnly s t) (f : State → α) : f t = f (withCommand t s) := congrArg f h

theorem ReceiveOnly.field {α : Type} {s t : State} (h : ReceiveOnly s t) (f : State → α) : f t = f (withReceive t s) := congrArg f h

theorem TransmitOnly.trans {s t u : State} (h1 : TransmitOnly s t) (h2 : TransmitOnly t u) : TransmitOnly s u :=
  Eq.trans h2 (h1.field (withTransmit u))

theorem ReceiveOnly.trans {s t u : State} (h1 : ReceiveOnly s t) (h2 : ReceiveOnly t u) : ReceiveOnly s u :=
  Eq.trans h2 (h1.field (withReceive u))

/-! ## Events and commands -/

theorem transmitOnly_txe {s t : State} (h : txe s = .next t) : TransmitOnly s t := by
  obtain ⟨-, -, rfl⟩ | ⟨-, -, -, -, e, -, rfl⟩ | ⟨-, -, -, rfl⟩ := txe_cases h <;> rfl

theorem receiveOnly_dispatch {u d : Byte} {s t : State} (h : dispatch u d s = .next t) : ReceiveOnly s t := by
  obtain ⟨-, rfl⟩ | ⟨-, -, -, cb, -, rfl⟩ := dispatch_eq_next.mp h <;> rfl

theorem receiveOnly_disarm (s : State) : ReceiveOnly s (disarmWdt (setRx rxAwaitUnit s)) := rfl

theorem receiveOnly_rxc {b : Byte} {err : Bool} {s t : State} (h : rxc b err s = .next t) : ReceiveOnly s t := by
  obtain ⟨-, -, rfl⟩ | ⟨-, -, rfl⟩ | ⟨-, -, rfl⟩ | ⟨-, rfl⟩ | ⟨-, -, h⟩ := rxc_cases h
  · rfl
  · rfl
  · rfl
  · rfl
  · exact (receiveOnly_disarm s).trans (receiveOnly_dispatch h)

theorem receiveOnly_tick {s t : State} (h : tick s = .next t) : ReceiveOnly s t := by
  obtain ⟨-, rfl⟩ | ⟨-, -, rfl⟩ | ⟨-, -, rfl⟩ := tick_cases h <;> rfl

theorem commandOnly_exec {i : Instr} {s t : State} (h : exec i s = .next t) : CommandOnly s t := by
  cases hr : isRead i with
  | true =>
    obtain ⟨c, d, rfl⟩ := exec_read_cases hr h
    rfl
  | false =>
    cases i with
    | submit u d =>
      obtain (⟨-, -, rfl⟩ | ⟨-, -, rfl⟩) | ⟨-, -, -, -, rfl⟩ | ⟨-, -, -, -, rfl⟩ := execSubmit_cases h <;> rfl
    | register idx ty cb => obtain ⟨c, rfl, -⟩ | ⟨-, -, -, -, -, rfl⟩ := execRegister_cases h <;> rfl
    | setCallback idx cb => obtain ⟨-, rfl⟩ | ⟨-, -, rfl⟩ := execSetCallback_cases h <;> rfl
    | eventClear idx => obtain ⟨-, rfl⟩ | ⟨-, -, rfl⟩ := execEventClear_cases h <;> rfl
    | eventClearAll => cases h; rfl
    | _ => cases hr

/-! ## Phases, and the cycle -/

theorem transmitOnly_drainPhase (c : CycleInput) (s : State) : TransmitOnly s (drainPhase c s) := by
  unfold drainPhase
  split <;> rfl

theorem transmitOnly_txePhase {s t : State} (h : txePhase s = .next t) : TransmitOnly s t := by
  unfold txePhase at h
  split at h
  · exact transmitOnly_txe h
  · cases h; rfl

theorem commandOnly_hostPhase {c : CycleInput} {s t : State} (h : hostPhase c s = .next t) : CommandOnly s t := by
  unfold hostPhase at h
  split at h
  · exact commandOnly_exec h
  · cases h; rfl

theorem receiveOnly_rxPhase {c : CycleInput} {s t : State} (h : rxPhase c s = .next t) : ReceiveOnly s t := by
  unfold rxPhase at h
  split at h
  · exact receiveOnly_rxc h
  · cases h; rfl

theorem receiveOnly_tickPhase {c : CycleInput} {s t : State} (h : tickPhase c s = .next t) : ReceiveOnly s t := by
  unfold tickPhase at h
  split at h
  · exact receiveOnly_tick h
  · cases h; rfl

/-- The cycle with the input c from s to t, none of it a reset: s1 after TXE, s2 after the command, s3 after RXC. -/
structure CycleRuns (c : CycleInput) (s s1 s2 s3 t : State) : Prop where
  inv    : Inv s
  atTxe  : txePhase (drainPhase c (beginCycle s)) = .next s1
  atHost : hostPhase c s1 = .next s2
  atRx   : rxPhase c s2 = .next s3
  atTick : tickPhase c s3 = .next t

theorem cycleRuns_of_step {s t : State} (hr : (nextInput s).rst = false) (h : step s = .next t) :
    ∃ s1 s2 s3, CycleRuns (nextInput s) s s1 s2 s3 t := by
  obtain ⟨-, ⟨hr', -⟩ | ⟨-, hi, s1, s2, s3, h1, h2, h3, h4⟩⟩ := step_eq_next.mp h
  · exact absurd (hr'.symm.trans hr) Bool.noConfusion
  · exact ⟨s1, s2, s3, hi, h1, h2, h3, h4⟩

theorem CycleRuns.transmitOnly {c : CycleInput} {s s1 s2 s3 t : State} (h : CycleRuns c s s1 s2 s3 t) :
    TransmitOnly (beginCycle s) s1 := (transmitOnly_drainPhase c _).trans (transmitOnly_txePhase h.atTxe)

theorem CycleRuns.commandOnly {c : CycleInput} {s s1 s2 s3 t : State} (h : CycleRuns c s s1 s2 s3 t) : CommandOnly s1 s2 :=
  commandOnly_hostPhase h.atHost

theorem CycleRuns.receiveOnly {c : CycleInput} {s s1 s2 s3 t : State} (h : CycleRuns c s s1 s2 s3 t) : ReceiveOnly s2 t :=
  (receiveOnly_rxPhase h.atRx).trans (receiveOnly_tickPhase h.atTick)

theorem CycleRuns.inv_drained {c : CycleInput} {s s1 s2 s3 t : State} (h : CycleRuns c s s1 s2 s3 t) :
    Inv (drainPhase c (beginCycle s)) := inv_drainPhase (inv_beginCycle h.inv) c

theorem CycleRuns.inv_sent {c : CycleInput} {s s1 s2 s3 t : State} (h : CycleRuns c s s1 s2 s3 t) : Inv s1 :=
  inv_txePhase h.inv_drained h.atTxe

theorem CycleRuns.inv_host {c : CycleInput} {s s1 s2 s3 t : State} (h : CycleRuns c s s1 s2 s3 t) : Inv s2 :=
  inv_hostPhase h.inv_sent h.atHost

theorem CycleRuns.params {c : CycleInput} {s s1 s2 s3 t : State} (h : CycleRuns c s s1 s2 s3 t) :
    s1.params = s.params ∧ s2.params = s.params ∧ t.params = s.params := by
  have h1 : s1.params = s.params := h.transmitOnly.field State.params
  have h2 : s2.params = s1.params := h.commandOnly.field State.params
  have h3 : t.params = s2.params := h.receiveOnly.field State.params
  exact ⟨h1, h2.trans h1, h3.trans (h2.trans h1)⟩

/-- Settles O39: the elements named are none of those that `withTransmit` and `withReceive` take over. -/
theorem pathsAreIndependent : Obligations.PathsAreIndependent := by
  refine ⟨fun s t h => ?_, fun s t h => ?_⟩
  · have ht : TransmitOnly s t := by
      obtain h | rfl := h
      · exact transmitOnly_txe h
      · rfl
    rw [ht]
    exact ⟨rfl, rfl, rfl, rfl, rfl, rfl, rfl, rfl, rfl, rfl, rfl⟩
  · have ht : ReceiveOnly s t := by
      obtain h | ⟨b, err, h⟩ := h
      · exact receiveOnly_tick h
      · exact receiveOnly_rxc h
    rw [ht]
    exact ⟨rfl, rfl, rfl, rfl, rfl, rfl, rfl, rfl, rfl, rfl, rfl, rfl⟩

/-- Settles O17: `withTransmit` and `withReceive` take over no response, and of the events only RXC dispatches. -/
theorem eventsNeverRespond : Obligations.EventsNeverRespond := by
  refine ⟨fun s t h => ?_, fun s => ⟨rfl, rfl⟩, fun b err s t h => (receiveOnly_rxc h).field State.rsp_reg, fun s t h => ?_⟩
  · have ht := transmitOnly_txe h
    exact ⟨ht.field State.rsp_reg, ht.field State.cb_reg⟩
  · obtain ⟨-, rfl⟩ | ⟨-, -, rfl⟩ | ⟨-, -, rfl⟩ := tick_cases h <;> exact ⟨rfl, rfl⟩

end Sys2Proof.Machine
end

section
/-! Responses and stored types: what a command answers, when the ports show it, and what it may depend on (00_scope.md R19; 30_encoding.md
R130, R133, R134; 41_receive.md R212; 42_registry.md R243; 70_reset_and_hazards.md R332, R343, R349). -/

namespace Sys2Proof.Machine

/-! ## What a command answers -/

/-- A command that returns a value with OK (30_encoding.md R132, R133). -/
def ReturnsData (i : Instr) : Prop := (∃ x, i = .getInput x ∨ i = .getOutput x ∨ i = .getDesc x ∨ i = .eventGet x) ∨ i = .status

/-- The causes of FAIL (30_encoding.md R134). -/
def FailCause (c : Cause) : Prop := c = .txBusy ∨ c = .queueFull

/-- The causes of ILLEGAL (30_encoding.md R134). -/
def IllegalCause (c : Cause) : Prop := c = .reservedOp ∨ c = .indexRange ∨ c = .reservedType ∨ c = .typeAbsent

/-- i, run in s, left t with one response: a FAIL of SUBMIT or an ILLEGAL, and nothing else changed; or an OK. -/
def AnswersOnce (i : Instr) (s t : State) : Prop :=
  (∃ c, FailCause c ∧ (∃ u d, i = .submit u d) ∧ t = respond .fail c.data s) ∨
  (∃ c, IllegalCause c ∧ t = respond .illegal c.data s) ∨
  (∃ d, t.rsp_reg = some ⟨.ok, d⟩ ∧ (d = 0 ∨ ReturnsData i))

theorem AnswersOnce.of_ok {i : Instr} {s t : State} (h : t.rsp_reg = some ⟨.ok, 0x0000⟩) : AnswersOnce i s t :=
  .inr (.inr ⟨_, h, .inl rfl⟩)

theorem AnswersOnce.of_reserved (i : Instr) (s : State) : AnswersOnce i s (respond .illegal (Cause.data .reservedOp) s) :=
  .inr (.inl ⟨_, .inl rfl, rfl⟩)

theorem AnswersOnce.of_indexRange (i : Instr) (s : State) : AnswersOnce i s (respond .illegal (Cause.data .indexRange) s) :=
  .inr (.inl ⟨_, .inr (.inl rfl), rfl⟩)

/-- An indexed command that returns a value: the range test, or OK with the value. -/
theorem AnswersOnce.of_withIndex {i : Instr} {idx : Byte} {s t : State} {k : Nat → Result State} (hi : ReturnsData i)
    (hok : ∀ t, k idx.toNat = .next t → ∃ d, t.rsp_reg = some ⟨.ok, d⟩) (h : withIndex idx s k = .next t) :
    AnswersOnce i s t := by
  obtain ⟨-, rfl⟩ | ⟨-, h⟩ := withIndex_eq_next.mp h
  · exact .of_indexRange i s
  · obtain ⟨d, hd⟩ := hok t h
    exact .inr (.inr ⟨d, hd, .inr hi⟩)

theorem answersOnce_exec {i : Instr} {s t : State} (h : exec i s = .next t) : AnswersOnce i s t := by
  cases i with
  | submit u d =>
    obtain (⟨-, -, rfl⟩ | ⟨-, -, rfl⟩) | ⟨-, -, -, -, rfl⟩ | ⟨-, -, -, -, rfl⟩ := execSubmit_cases h
    · exact .inl ⟨_, .inl rfl, ⟨u, d, rfl⟩, rfl⟩
    · exact .inl ⟨_, .inr rfl, ⟨u, d, rfl⟩, rfl⟩
    · exact .of_ok rfl
    · exact .of_ok rfl
  | register idx ty cb =>
    obtain ⟨c, rfl, hc⟩ | ⟨-, -, -, -, -, rfl⟩ := execRegister_cases h
    · refine .inr (.inl ⟨c, ?_, rfl⟩)
      obtain ⟨-, rfl⟩ | ⟨-, -, rfl⟩ | ⟨-, -, -, rfl⟩ := hc <;> simp [IllegalCause]
    · exact .of_ok rfl
  | setCallback idx cb =>
    obtain ⟨-, rfl⟩ | ⟨-, -, rfl⟩ := execSetCallback_cases h
    · exact .of_indexRange _ s
    · exact .of_ok rfl
  | eventClear idx =>
    obtain ⟨-, rfl⟩ | ⟨-, -, rfl⟩ := execEventClear_cases h
    · exact .of_indexRange _ s
    · exact .of_ok rfl
  | getInput idx =>
    unfold exec execGetInput at h
    exact .of_withIndex (.inl ⟨idx, by simp⟩) (fun _ => ok_of_andThen) h
  | getOutput idx =>
    unfold exec execGetOutput at h
    exact .of_withIndex (.inl ⟨idx, by simp⟩) (fun _ => ok_of_andThen) h
  | eventGet idx =>
    unfold exec execEventGet at h
    exact .of_withIndex (.inl ⟨idx, by simp⟩) (fun _ => ok_of_andThen) h
  | getDesc idx =>
    unfold exec execGetDesc at h
    refine .of_withIndex (.inl ⟨idx, by simp⟩) (fun t hk => ?_) h
    obtain ⟨cb, -, hk⟩ := andThen_eq_next.mp hk
    exact ok_of_andThen hk
  | status => cases h; exact .inr (.inr ⟨_, rfl, .inr (.inr rfl)⟩)
  | nop | eventClearAll => cases h; exact .of_ok rfl
  | reservedB | reservedC | reservedD | reservedE | reservedF => cases h; exact .of_reserved _ s

theorem FailCause.data_eq {c : Cause} (h : FailCause c) : c.data = 0x1 ∨ c.data = 0x2 := by
  obtain rfl | rfl := h <;> decide

theorem IllegalCause.data_eq {c : Cause} (h : IllegalCause c) : c.data = 0x3 ∨ c.data = 0x4 ∨ c.data = 0x5 ∨ c.data = 0x6 := by
  obtain rfl | rfl | rfl | rfl := h <;> decide

/-- R133: the code 0b11 is produced by no response. -/
theorem bits_ne_unused (c : RspCode) : c.bits ≠ 0b11#2 := by cases c <;> decide

/-- Settles O16: the three ways of `answersOnce_exec`. -/
theorem everyCommandAnswersOnce : Obligations.EveryCommandAnswersOnce := by
  intro i s t h
  obtain ⟨c, hc, hi, rfl⟩ | ⟨c, hc, rfl⟩ | ⟨d, hr, hd⟩ := answersOnce_exec h
  · exact ⟨_, rfl, bits_ne_unused _, fun _ => ⟨rfl, hc.data_eq, hi⟩, nofun, nofun⟩
  · exact ⟨_, rfl, bits_ne_unused _, nofun, fun _ => ⟨rfl, hc.data_eq⟩, nofun⟩
  · exact ⟨_, hr, bits_ne_unused _, nofun, nofun, fun _ => hd⟩

theorem exec_holds_response {i : Instr} {s t : State} (h : exec i s = .next t) : t.rsp_reg.isSome = true := by
  obtain ⟨c, -, -, rfl⟩ | ⟨c, -, rfl⟩ | ⟨d, hr, -⟩ := answersOnce_exec h
  · rfl
  · rfl
  · rw [hr]; rfl

/-! ## When the ports show it -/

/-- The command's part of a cycle leaves a response where there is a command, and none where none was held before. -/
theorem hostPhase_holds_response {c : CycleInput} {s t : State} (h0 : s.rsp_reg = none) (h : hostPhase c s = .next t) :
    t.rsp_reg.isSome = c.cmd.isSome := by
  unfold hostPhase at h
  split at h
  · rename_i w hc
    rw [exec_holds_response h, hc]
    rfl
  · rename_i hc
    cases h
    rw [h0, hc]
    rfl

theorem CycleRuns.rsp_reg_eq {c : CycleInput} {s s1 s2 s3 t : State} (h : CycleRuns c s s1 s2 s3 t) : t.rsp_reg = s2.rsp_reg :=
  h.receiveOnly.field State.rsp_reg

theorem CycleRuns.holds_response {c : CycleInput} {s s1 s2 s3 t : State} (h : CycleRuns c s s1 s2 s3 t) :
    t.rsp_reg.isSome = c.cmd.isSome := by
  rw [h.rsp_reg_eq]
  exact hostPhase_holds_response (h.transmitOnly.field State.rsp_reg) h.atHost

/-- A cycle presents what the cycle before it held (R130, R212). -/
theorem CycleRuns.presents {c : CycleInput} {s s1 s2 s3 t : State} (h : CycleRuns c s s1 s2 s3 t) :
    t.ports.rsp = s.rsp_reg ∧ t.ports.cb = s.cb_reg := by
  have h1 := h.transmitOnly
  have h2 := h.commandOnly
  have h3 := h.receiveOnly
  exact ⟨(h3.field (·.ports.rsp)).trans ((h2.field (·.ports.rsp)).trans (h1.field (·.ports.rsp))),
    (h3.field (·.ports.cb)).trans ((h2.field (·.ports.cb)).trans (h1.field (·.ports.cb)))⟩

theorem step_of_reset {s t : State} (hr : (nextInput s).rst = true) (h : step s = .next t) : t = resetCycle s := by
  obtain ⟨-, ⟨-, rfl⟩ | ⟨hr', -⟩⟩ := step_eq_next.mp h
  · rfl
  · exact absurd (hr.symm.trans hr') Bool.noConfusion

/-- Settles O18: a reset cycle holds and shows nothing; any other holds a response with a command, and presents what was held. -/
theorem outputsAppearOneCycleLater : Obligations.OutputsAppearOneCycleLater := by
  intro s t t2 h h2
  refine ⟨?_, fun hr => ?_, fun hr => ?_⟩
  · cases hr : (nextInput s).rst with
    | true => rw [step_of_reset hr h]; simp
    | false =>
      obtain ⟨s1, s2, s3, hc⟩ := cycleRuns_of_step hr h
      simp [hc.holds_response]
  · obtain ⟨t1, t2', t3, hc⟩ := cycleRuns_of_step hr h2
    exact hc.presents
  · rw [step_of_reset hr h2]
    exact ⟨rfl, rfl⟩

/-! ## What it may depend on -/

/-- Cycles that agree on DRAIN and the command agree up to RXC. -/
theorem CycleRuns.same_host {c c' : CycleInput} {s s' s1 s1' s2 s2' s3 s3' t t' : State} (hd : c'.drain = c.drain)
    (hc : c'.cmd = c.cmd) (h : CycleRuns c s s1 s2 s3 t) (h' : CycleRuns c' s' s1' s2' s3' t') (hs : beginCycle s = beginCycle s') :
    s2 = s2' := by
  have h1 := h.atTxe
  have h2 := h.atHost
  simp only [drainPhase, hs, ← hd] at h1
  obtain rfl : s1 = s1' := Host.Outcome.next.inj (h1.symm.trans h'.atTxe)
  simp only [hostPhase, ← hc] at h2
  exact Host.Outcome.next.inj (h2.symm.trans h'.atHost)

/-- What is held, sent and stored for output after a cycle is so already after the cycle's command. -/
theorem CycleRuns.sent_at_host {c : CycleInput} {s s1 s2 s3 t : State} (h : CycleRuns c s s1 s2 s3 t) :
    t.rsp_reg = s2.rsp_reg ∧ t.ports.tx = s2.ports.tx ∧ t.ports.wire = s2.ports.wire ∧ t.regs.out_val = s2.regs.out_val := by
  have hr := h.receiveOnly
  exact ⟨hr.field State.rsp_reg, hr.field (·.ports.tx), hr.field (·.ports.wire), hr.field (·.regs.out_val)⟩

/-- Settles O19: the two cycles agree up to RXC, and RXC and TICK write no response, no byte sent and no output value. -/
theorem responseIgnoresSameCycleReceive : Obligations.ResponseIgnoresSameCycleReceive := by
  intro s t t' c c' rest hrst hdrain hcmd h h'
  cases hr : c.rst with
  | true =>
    rw [step_of_reset (s := { s with inputs := c :: rest }) hr h,
      step_of_reset (s := { s with inputs := c' :: rest }) (hrst.trans hr) h']
    exact ⟨rfl, rfl, rfl, rfl⟩
  | false =>
    obtain ⟨s1, s2, s3, hc⟩ := cycleRuns_of_step (s := { s with inputs := c :: rest }) hr h
    obtain ⟨s1', s2', s3', hc'⟩ := cycleRuns_of_step (s := { s with inputs := c' :: rest }) (hrst.trans hr) h'
    obtain rfl : s2 = s2' := hc.same_host hdrain hcmd hc' rfl
    obtain ⟨hrsp, htx, hwire, hout⟩ := hc.sent_at_host
    obtain ⟨hrsp', htx', hwire', hout'⟩ := hc'.sent_at_host
    exact ⟨hrsp'.trans hrsp.symm, htx'.trans htx.symm, hwire'.trans hwire.symm, hout'.trans hout.symm⟩

/-! ## Stored types -/

theorem typesLegal_congr {s t : State} (h : t.regs.desc_type = s.regs.desc_type) (hs : TypesLegal s) : TypesLegal t := by
  rw [TypesLegal, h]
  exact hs

/-- Only REGISTER stores a type, and it turns the reserved codes away (R243). -/
theorem typesLegal_exec {i : Instr} {s t : State} (hs : TypesLegal s) (h : exec i s = .next t) : TypesLegal t := by
  cases hr : isRead i with
  | true =>
    obtain ⟨c, d, rfl⟩ := exec_read_cases hr h
    exact hs
  | false =>
    cases i with
    | submit u d => exact typesLegal_congr (congrArg ReceiveView.desc_type (receiveView_execSubmit h)) hs
    | register idx ty cb =>
      obtain ⟨c, rfl, -⟩ | ⟨-, hres, -, -, -, rfl⟩ := execRegister_cases h
      · exact hs
      · intro ty' hty'
        obtain hmem | rfl := List.mem_or_eq_of_mem_set hty'
        · exact hs ty' hmem
        · exact Nat.not_le.mp (mt typeReserved_iff.mpr (by simp [hres]))
    | setCallback idx cb => obtain ⟨-, rfl⟩ | ⟨-, -, rfl⟩ := execSetCallback_cases h <;> exact hs
    | eventClear idx => obtain ⟨-, rfl⟩ | ⟨-, -, rfl⟩ := execEventClear_cases h <;> exact hs
    | eventClearAll => cases h; exact hs
    | _ => cases hr

theorem typesLegal_hostPhase {c : CycleInput} {s t : State} (hs : TypesLegal s) (h : hostPhase c s = .next t) : TypesLegal t := by
  unfold hostPhase at h
  split at h
  · exact typesLegal_exec hs h
  · cases h; exact hs

/-- Settles O13: a reset stores Undefined everywhere, and of a cycle's parts only the command writes types. -/
theorem storedTypesStayLegal : Obligations.StoredTypesStayLegal := by
  intro s t hs h
  cases hr : (nextInput s).rst with
  | true =>
    rw [step_of_reset hr h]
    exact typesLegal_resetOf _ _
  | false =>
    obtain ⟨s1, s2, s3, hc⟩ := cycleRuns_of_step hr h
    have hs1 : TypesLegal s1 := typesLegal_congr (hc.transmitOnly.field (·.regs.desc_type)) hs
    have hs2 : TypesLegal s2 := typesLegal_hostPhase hs1 hc.atHost
    exact typesLegal_congr (hc.receiveOnly.field (·.regs.desc_type)) hs2

end Sys2Proof.Machine
end

section
/-! RXC, Dispatch and TICK answered as equations, one per transition (41_receive.md R201 to R211, R223 to R225), and GET_INPUT and
GET_OUTPUT (42_registry.md R245, R246). -/

namespace Sys2Proof.Machine

/-! ## RXC by receive state -/

theorem rxc_awaitUnit {s : State} (hx : s.regs.rx_state = rxAwaitUnit) (b : Byte) (err : Bool) :
    rxc b err s = rxcAwaitUnit b err s := if_pos hx

theorem rxc_awaitData {s : State} (hx : s.regs.rx_state = rxAwaitData) (b : Byte) (err : Bool) :
    rxc b err s = rxcAwaitData b err s := by
  rw [rxc, if_neg (by rw [hx]; decide), if_pos hx]

theorem rxc_resyncDiscard {s : State} (hx : s.regs.rx_state = rxResyncDiscard) (b : Byte) (err : Bool) :
    rxc b err s = rxcResyncDiscard s := by
  rw [rxc, if_neg (by rw [hx]; decide), if_neg (by rw [hx]; decide), if_pos hx]

theorem rxc_unused {s : State} (hx : s.regs.rx_state = 0b11#2) (b : Byte) (err : Bool) :
    rxc b err s = .fault .rxStateUnused := by
  rw [rxc, if_neg (by rw [hx]; decide), if_neg (by rw [hx]; decide), if_neg (by rw [hx]; decide)]

/-- Settles O31: the two branches of AwaitUnit. -/
theorem rxcInAwaitUnit : Obligations.RxcInAwaitUnit := by
  intro b s hx
  exact ⟨rxc_awaitUnit hx b false, rxc_awaitUnit hx b true⟩

/-- Settles O32: the errored branch of AwaitData, ResyncDiscard, and the unused code. -/
theorem rxcDropsTheByte : Obligations.RxcDropsTheByte :=
  fun b err _ => ⟨fun hx => rxc_awaitData hx b true, fun hx => rxc_resyncDiscard hx b err, fun hx => rxc_unused hx b err⟩

/-! ## Dispatch -/

theorem dispatch_unregistered {s : State} {u : Byte} (h : Unregistered s (unitIndex u)) (d : Byte) :
    dispatch u d s = .next (noteDrop .unregistered s) := dispatch_eq_next.mpr (.inl ⟨h, rfl⟩)

theorem dispatch_registered {s : State} {u : Byte} {cb : Bool} (hs : Sized s) (h : Registered s (unitIndex u))
    (hcb : s.regs.desc_cb[unitIndex u]? = some cb) (d : Byte) :
    dispatch u d s = .next { s with
      regs := { s.regs with
        in_val := s.regs.in_val.set (unitIndex u) d
        event_word := withEventBit s.regs.event_word (unitIndex u) true }
      cb_reg := if cb then some ⟨u, d⟩ else s.cb_reg } :=
  dispatch_eq_next.mpr (.inr ⟨h, hs.in_val.symm ▸ h.1, unitIndex_lt u, cb, hcb, rfl⟩)

/-- Settles O33: a clean byte in AwaitData disarms and dispatches, and dispatching reads and writes nothing that disarming wrote. -/
theorem rxcCompletesThePair : Obligations.RxcCompletesThePair := by
  intro b s hx hs _
  rw [rxc_awaitData hx b false]
  refine ⟨fun hun => dispatch_unregistered (s := disarmWdt (setRx rxAwaitUnit s)) hun b, fun ty cb hlt hty hne hcb => ?_⟩
  have hsized : Sized (disarmWdt (setRx rxAwaitUnit s)) := ⟨hs.rb_mem, hs.desc_type, hs.desc_cb, hs.in_val, hs.out_val⟩
  exact dispatch_registered hsized ⟨hlt, ty, hty, hne⟩ hcb b

/-! ## TICK -/

theorem tick_disarmed {s : State} (ha : s.regs.wdt_armed = false) : tick s = .next s := if_neg (by simp [ha])

theorem tick_counts {s : State} (ha : s.regs.wdt_armed = true) (hlt : s.regs.wdt_count.toNat + 1 < s.params.wdtTicks) :
    tick s = .next { s with regs := { s.regs with wdt_count := s.regs.wdt_count + 1 } } := by
  rw [tick, if_pos ha, if_pos hlt]

theorem tick_expires {s : State} (ha : s.regs.wdt_armed = true) (heq : s.regs.wdt_count.toNat + 1 = s.params.wdtTicks) :
    tick s = .next (expire s) := by
  rw [tick, if_pos ha, if_neg heq.not_lt, if_pos heq]

/-- Settles O34: the three branches of TICK. -/
theorem tickCountsOrExpires : Obligations.TickCountsOrExpires := fun _ => ⟨tick_disarmed, tick_counts, tick_expires⟩

/-! ## GET_INPUT, GET_OUTPUT -/

theorem execGetInput_out {idx : Byte} {s : State} (h : s.params.numUnits ≤ idx.toNat) :
    execGetInput idx s = raiseIllegal .indexRange s := withIndex_out h _

theorem execGetOutput_out {idx : Byte} {s : State} (h : s.params.numUnits ≤ idx.toNat) :
    execGetOutput idx s = raiseIllegal .indexRange s := withIndex_out h _

theorem execGetInput_of_stored {idx : Byte} {s : State} {v : Byte} (hi : idx.toNat < s.params.numUnits)
    (hv : s.regs.in_val[idx.toNat]? = some v) : execGetInput idx s = .next (respond .ok (v.setWidth 16) s) := by
  rw [execGetInput, withIndex_in hi, memRead_eq_next.mpr hv, andThen_next]

theorem execGetOutput_of_stored {idx : Byte} {s : State} {v : Byte} (hi : idx.toNat < s.params.numUnits)
    (hv : s.regs.out_val[idx.toNat]? = some v) : execGetOutput idx s = .next (respond .ok (v.setWidth 16) s) := by
  rw [execGetOutput, withIndex_in hi, memRead_eq_next.mpr hv, andThen_next]

/-- Settles O43: the range test, and in range both arrays hold a byte at the index. -/
theorem getInputAndGetOutput : Obligations.GetInputAndGetOutput := by
  intro idx s hs
  refine ⟨fun hout => ⟨execGetInput_out hout, execGetOutput_out hout⟩, fun hi => ?_⟩
  have hin := List.getElem?_eq_getElem (hs.in_val.symm ▸ hi)
  have hout := List.getElem?_eq_getElem (hs.out_val.symm ▸ hi)
  refine ⟨_, _, hin, hout, ?_⟩
  rw [← setWidth_byte, ← setWidth_byte]
  exact ⟨execGetInput_of_stored hi hin, execGetOutput_of_stored hi hout⟩

end Sys2Proof.Machine
end

section
/-! TXE and DRAIN within a cycle (40_transmit.md R163, R167 to R170, R175; 60_exceptions.md R296, R301; 70_reset_and_hazards.md R347): which
byte is written to THR, and that the cycle's command leaves a full THR alone. -/

namespace Sys2Proof.Machine

/-! ## TXE -/

/-- TXE where R65 holds sends the next byte, and mid_pair turns over: R169 is not reached. -/
theorem txe_sends {s t : State} (hi : Inv s) (hen : s.regs.tx_int_en = true) (h : txe s = .next t) :
    ∃ v, nextByte s = some v ∧ ThrGets v s t ∧ t.regs.mid_pair = !s.regs.mid_pair := by
  obtain ⟨hm, hf, rfl⟩ | ⟨hc, hm, hn, hf, e, he, ht⟩ | ⟨-, hm, hn, -⟩ := txe_cases h
  · exact ⟨_, by simp [nextByte, hm], ⟨hf, rfl, rfl, rfl, rfl⟩, by rw [hm]; rfl⟩
  · have hq : queue s = e :: queue t := by
      refine queue_eq_cons (hi.ringOk hc) hn he ?_ ?_ ?_ ?_ <;> rw [ht]
    subst ht
    exact ⟨_, by simp [nextByte, hm, hq], ⟨hf, rfl, rfl, rfl, rfl⟩, by rw [hm]; rfl⟩
  · obtain hm' | hn' := hi.int_iff.mp hen
    · exact absurd (hm.symm.trans hm') Bool.noConfusion
    · omega

theorem nextByte_drainPhase (c : CycleInput) (s : State) : nextByte (drainPhase c (beginCycle s)) = nextByte s := by
  unfold drainPhase
  split <;> rfl

theorem mid_pair_drainPhase (c : CycleInput) (s : State) : (drainPhase c s).regs.mid_pair = s.regs.mid_pair := by
  unfold drainPhase
  split <;> rfl

theorem tx_drainPhase (c : CycleInput) (s : State) : (drainPhase c s).ports.tx = s.ports.tx := by
  unfold drainPhase
  split <;> rfl

/-- Where TXE fires in a cycle, THR holds the next byte before the cycle's command. -/
theorem CycleRuns.sends {s s1 s2 s3 t : State} (h : CycleRuns (nextInput s) s s1 s2 s3 t) (hf : txeFires s) :
    ∃ v, nextByte s = some v ∧ s1.regs.thr_full = true ∧ s1.regs.thr_byte = v ∧ s1.ports.tx = some v ∧
      s1.regs.mid_pair = !s.regs.mid_pair := by
  have hen := txeEnabled_drainPhase_iff.mpr hf
  have htxe : txe (drainPhase (nextInput s) (beginCycle s)) = .next s1 := (if_pos hen).symm.trans h.atTxe
  obtain ⟨v, hv, hg, hm⟩ := txe_sends h.inv_drained (Bool.and_eq_true_iff.mp hen).1 htxe
  rw [nextByte_drainPhase] at hv
  rw [mid_pair_drainPhase] at hm
  exact ⟨v, hv, hg.full, hg.byte, hg.tx, hm⟩

/-- Where TXE does not fire, there is no thr_write before the cycle's command. -/
theorem CycleRuns.rests {s s1 s2 s3 t : State} (h : CycleRuns (nextInput s) s s1 s2 s3 t) (hf : ¬ txeFires s) :
    s1.ports.tx = none := by
  have hs1 : drainPhase (nextInput s) (beginCycle s) = s1 :=
    Host.Outcome.next.inj ((if_neg (mt txeEnabled_drainPhase_iff.mp hf)).symm.trans h.atTxe)
  rw [← hs1, tx_drainPhase]
  rfl

/-- TXE fires in a cycle that drains a full THR, or finds it empty, with work pending (R65). -/
theorem txeFires_of_work {s : State} (hi : Inv s) (hw : s.regs.mid_pair = true ∨ 0 < rbCount s)
    (hd : s.regs.thr_full = false ∨ (nextInput s).drain = true) : txeFires s := ⟨hi.int_iff.mpr hw, hd⟩

/-! ## The command after TXE -/

/-- A cycle's command is a SUBMIT, or touches nothing of the transmit path. -/
theorem hostPhase_submit_or_view {c : CycleInput} {s t : State} (h : hostPhase c s = .next t) :
    (∃ w u d, c.cmd = some w ∧ decode w = .submit u d ∧ execSubmit u d s = .next t) ∨
      ((∀ w u d, c.cmd = some w → decode w ≠ .submit u d) ∧ transmitView t = transmitView s) := by
  unfold hostPhase at h
  split at h
  · rename_i w hc
    by_cases hsub : ∃ u d, decode w = .submit u d
    · obtain ⟨u, d, hw⟩ := hsub
      rw [hw] at h
      exact .inl ⟨w, u, d, hc, hw, h⟩
    · have hno : ∀ u d, decode w ≠ .submit u d := fun u d hw => hsub ⟨u, d, hw⟩
      refine .inr ⟨fun w' u d hc' => ?_, transmitView_exec hno h⟩
      obtain rfl : w = w' := Option.some.inj (hc.symm.trans hc')
      exact hno u d
  · rename_i hc
    cases h
    exact .inr ⟨fun w u d hc' => absurd (hc.symm.trans hc') nofun, rfl⟩

/-- SUBMIT finds a full THR busy (R162) or goes to the queue (R166). -/
theorem execSubmit_keeps_full_thr {u d : Byte} {s t : State} (hf : s.regs.thr_full = true) (h : execSubmit u d s = .next t) :
    SameThr s t ∧ t.regs.mid_pair = s.regs.mid_pair := by
  obtain (⟨-, -, rfl⟩ | ⟨-, -, rfl⟩) | ⟨-, hf', -⟩ | ⟨-, -, -, -, rfl⟩ := execSubmit_cases h
  · exact ⟨⟨rfl, rfl, rfl, rfl⟩, rfl⟩
  · exact ⟨⟨rfl, rfl, rfl, rfl⟩, rfl⟩
  · exact absurd (hf.symm.trans hf') Bool.noConfusion
  · exact ⟨⟨rfl, rfl, rfl, rfl⟩, rfl⟩

theorem hostPhase_keeps_full_thr {c : CycleInput} {s t : State} (hf : s.regs.thr_full = true) (h : hostPhase c s = .next t) :
    SameThr s t ∧ t.regs.mid_pair = s.regs.mid_pair := by
  obtain ⟨w, u, d, -, -, h⟩ | ⟨-, hv⟩ := hostPhase_submit_or_view h
  · exact execSubmit_keeps_full_thr hf h
  · exact ⟨sameThr_of_view hv, congrArg TransmitView.mid_pair hv⟩

/-- Where TXE wrote nothing, a thr_write of the cycle is a queueless SUBMIT's, of its unit byte (R163); a buffered one writes none
(R166). -/
theorem hostPhase_tx {c : CycleInput} {s t : State} (h0 : s.ports.tx = none) (h : hostPhase c s = .next t) :
    t.ports.tx = if s.params.rbCapacity = 0 then (acceptedBytes c t).head? else none := by
  obtain ⟨w, u, d, hc, hw, h⟩ | ⟨hno, hv⟩ := hostPhase_submit_or_view h
  · obtain (⟨-, -, rfl⟩ | ⟨hcap, -, rfl⟩) | ⟨hcap, -, -, -, rfl⟩ | ⟨hcap, -, -, -, rfl⟩ := execSubmit_cases h
    · simp [acceptedBytes_submit hc hw (respond_rsp_reg _ _ _), h0]
    · rw [if_neg hcap.ne']
      exact h0
    · rw [if_pos hcap, acceptedBytes_submit hc hw rfl]
      rfl
    · rw [if_neg hcap.ne']
      exact h0
  · have htx : t.ports.tx = none := (congrArg TransmitView.tx hv).trans h0
    simp [acceptedBytes_of_no_submit hno, htx]

/-! ## The wire -/

theorem wire_drainPhase (c : CycleInput) (s : State) :
    (drainPhase c (beginCycle s)).ports.wire = if c.drain = true ∧ s.regs.thr_full = true then some s.regs.thr_byte else none := by
  simp only [drainPhase, beginCycle_regs, Bool.and_eq_true]
  split <;> rfl

theorem wire_txePhase {s t : State} (h : txePhase s = .next t) : t.ports.wire = s.ports.wire := by
  unfold txePhase at h
  split at h
  · obtain ⟨-, -, rfl⟩ | ⟨-, -, -, -, e, -, rfl⟩ | ⟨-, -, -, rfl⟩ := txe_cases h <;> rfl
  · cases h; rfl

theorem CycleRuns.wire_eq {c : CycleInput} {s s1 s2 s3 t : State} (h : CycleRuns c s s1 s2 s3 t) :
    t.ports.wire = if c.drain = true ∧ s.regs.thr_full = true then some s.regs.thr_byte else none :=
  calc t.ports.wire = s2.ports.wire := h.receiveOnly.field (·.ports.wire)
    _ = s1.ports.wire := h.commandOnly.field (·.ports.wire)
    _ = _ := (wire_txePhase h.atTxe).trans (wire_drainPhase c s)

/-! ## The cycle -/

/-- After a cycle in which TXE fired, THR holds the byte sent, and that is the one thr_write of the cycle. -/
theorem CycleRuns.sent {s s1 s2 s3 t : State} (h : CycleRuns (nextInput s) s s1 s2 s3 t) (hf : txeFires s) :
    ∃ v, nextByte s = some v ∧ t.regs.thr_full = true ∧ t.regs.thr_byte = v ∧ t.ports.tx = some v ∧
      t.regs.mid_pair = !s.regs.mid_pair := by
  obtain ⟨v, hv, hfull, hbyte, htx, hm⟩ := h.sends hf
  obtain ⟨hst, hm2⟩ := hostPhase_keeps_full_thr hfull h.atHost
  have hr := h.receiveOnly
  exact ⟨v, hv, (hr.field (·.regs.thr_full)).trans (hst.full.trans hfull), (hr.field (·.regs.thr_byte)).trans (hst.byte.trans hbyte),
    (hr.field (·.ports.tx)).trans (hst.tx.trans htx), (hr.field (·.regs.mid_pair)).trans (hm2.trans hm)⟩

theorem CycleRuns.tx_of_rest {s s1 s2 s3 t : State} (h : CycleRuns (nextInput s) s s1 s2 s3 t) (hf : ¬ txeFires s) :
    t.ports.tx = if s.params.rbCapacity = 0 then (acceptedBytes (nextInput s) t).head? else none := by
  obtain ⟨hp, -, -⟩ := h.params
  rw [acceptedBytes_congr h.rsp_reg_eq, ← hp, ← hostPhase_tx (h.rests hf) h.atHost]
  exact h.receiveOnly.field (·.ports.tx)

/-- Settles O26: TXE fires or not, and the command after it adds a thr_write only where it did not. -/
theorem txeAndDrainFireWhenEnabled : Obligations.TxeAndDrainFireWhenEnabled := by
  intro s t _ hr h
  obtain ⟨s1, s2, s3, hc⟩ := cycleRuns_of_step hr h
  refine ⟨fun hcmd => ⟨fun hsome => ?_, fun hf => ?_⟩, fun hf => ?_, hc.tx_of_rest, hc.wire_eq⟩
  · by_contra hf
    rw [hc.tx_of_rest hf] at hsome
    obtain hcap | hno := hcmd
    · rw [if_neg hcap.ne'] at hsome
      cases hsome
    · simp [acceptedBytes_of_no_submit hno] at hsome
  · obtain ⟨v, -, -, -, htx, -⟩ := hc.sent hf
    rw [htx]
    rfl
  · obtain ⟨v, hv, -, -, htx, hm⟩ := hc.sent hf
    exact ⟨⟨v, hv, htx⟩, hm⟩

/-- Settles O29: with work pending TXE fires behind the DRAIN, and THR holds the byte it sent. -/
theorem drainedThrIsRefilled : Obligations.DrainedThrIsRefilled := by
  intro s t hi hr hd hfull hw h
  obtain ⟨s1, s2, s3, hc⟩ := cycleRuns_of_step hr h
  obtain ⟨v, -, hfull', hbyte, htx, -⟩ := hc.sent (txeFires_of_work hi hw (.inr hd))
  exact ⟨hfull', by rw [hc.wire_eq, if_pos ⟨hd, hfull⟩], by rw [htx, hbyte]⟩

/-- A queueless SUBMIT with THR full fails (R162), and nothing but the response changes. -/
theorem execSubmit_queueless_full {u d : Byte} {s t : State} (hcap : s.params.rbCapacity = 0) (hf : s.regs.thr_full = true)
    (h : execSubmit u d s = .next t) : t = respond .fail (Cause.data .txBusy) s :=
  (Host.Outcome.next.inj (((exec_submit_queueless hcap u d).trans (submitQueueless_busy (.inl hf) u d)).symm.trans h)).symm

/-- Settles O23: TXE has filled THR with the pending second byte when the SUBMIT comes, so that it fails. -/
theorem submitFailsBesideTxe : Obligations.SubmitFailsBesideTxe := by
  intro s t w u d hi hcap hr hcmd hw hen hd h
  obtain ⟨s1, s2, s3, hc⟩ := cycleRuns_of_step hr h
  have hm : s.regs.mid_pair = true := by simpa [rbCount, hcap] using hi.int_iff.mp hen
  obtain ⟨v, hv, hfull, -, htx, -⟩ := hc.sends ⟨hen, hd⟩
  obtain rfl : s.regs.second_byte = v := by simpa [nextByte, hm] using hv
  have hsub : execSubmit u d s1 = .next s2 := by
    have hhost := hc.atHost
    simp only [hostPhase, hcmd, hw] at hhost
    exact hhost
  obtain ⟨hp, -, -⟩ := hc.params
  have hs2 : s2 = respond .fail (Cause.data .txBusy) s1 := execSubmit_queueless_full (hp ▸ hcap) hfull hsub
  obtain ⟨hrsp, htx2, -, hout⟩ := hc.sent_at_host
  rw [hs2] at hrsp htx2 hout
  exact ⟨hrsp, htx2.trans htx, hout.trans (hc.transmitOnly.field (·.regs.out_val))⟩

end Sys2Proof.Machine
end

section
/-! Bytes, ticks and dispatches within a cycle (41_receive.md R201 to R204, R210, R212, R216, R227). -/

namespace Sys2Proof.Machine

/-! ## What RXC finds -/

/-- RXC finds the receive path as the cycle did, the descriptors as the command left them, and nothing held or dropped yet. -/
structure ReceivesFrom (s s2 : State) : Prop where
  params       : s2.params = s.params
  rx_state     : s2.regs.rx_state = s.regs.rx_state
  pending_unit : s2.regs.pending_unit = s.regs.pending_unit
  wdt_armed    : s2.regs.wdt_armed = s.regs.wdt_armed
  wdt_count    : s2.regs.wdt_count = s.regs.wdt_count
  in_val       : s2.regs.in_val = s.regs.in_val
  cb_reg       : s2.cb_reg = none
  drops        : s2.ports.drops = []

theorem CycleRuns.receivesFrom {c : CycleInput} {s s1 s2 s3 t : State} (h : CycleRuns c s s1 s2 s3 t) : ReceivesFrom s s2 := by
  have h1 := h.transmitOnly
  have h2 := h.commandOnly
  exact ⟨(h2.field State.params).trans (h1.field State.params), (h2.field (·.regs.rx_state)).trans (h1.field (·.regs.rx_state)),
    (h2.field (·.regs.pending_unit)).trans (h1.field (·.regs.pending_unit)),
    (h2.field (·.regs.wdt_armed)).trans (h1.field (·.regs.wdt_armed)),
    (h2.field (·.regs.wdt_count)).trans (h1.field (·.regs.wdt_count)), (h2.field (·.regs.in_val)).trans (h1.field (·.regs.in_val)),
    (h2.field State.cb_reg).trans (h1.field State.cb_reg), (h2.field (·.ports.drops)).trans (h1.field (·.ports.drops))⟩

theorem CycleRuns.rxc_eq {c : CycleInput} {s s1 s2 s3 t : State} (h : CycleRuns c s s1 s2 s3 t) {b : RxByte} (hb : c.rx = some b) :
    rxc b.data (rxErr b) s2 = .next s3 := by
  have hrx := h.atRx
  simp only [rxPhase, hb] at hrx
  exact hrx

theorem CycleRuns.rx_none {c : CycleInput} {s s1 s2 s3 t : State} (h : CycleRuns c s s1 s2 s3 t) (hb : c.rx = none) : s3 = s2 := by
  have hrx := h.atRx
  simp only [rxPhase, hb] at hrx
  cases hrx
  rfl

theorem CycleRuns.tick_eq {c : CycleInput} {s s1 s2 s3 t : State} (h : CycleRuns c s s1 s2 s3 t) (ht : c.tick = true) :
    tick s3 = .next t := (if_pos ht).symm.trans h.atTick

/-! ## A byte and a tick in one cycle (R227) -/

/-- A first byte arms the watchdog from 0, clean or not (R201, R202). -/
theorem rxc_arms {b : Byte} {err : Bool} {s t : State} (hx : s.regs.rx_state = rxAwaitUnit) (h : rxc b err s = .next t) :
    t.regs.rx_state = (if err then rxResyncDiscard else rxAwaitData) ∧ t.regs.wdt_armed = true ∧ t.regs.wdt_count = 0 := by
  rw [rxc_awaitUnit hx] at h
  cases err <;> cases h <;> exact ⟨rfl, rfl, rfl⟩

/-- A dispatch keeps the receive control, and drops at most the pair (R211). -/
theorem dispatch_keeps_control {u d : Byte} {s t : State} (h : dispatch u d s = .next t) :
    t.regs.rx_state = s.regs.rx_state ∧ t.regs.wdt_armed = s.regs.wdt_armed ∧ t.regs.wdt_count = s.regs.wdt_count ∧
      (t.ports.drops = s.ports.drops ∨ t.ports.drops = s.ports.drops ++ [.unregistered]) := by
  obtain ⟨-, rfl⟩ | ⟨-, -, -, cb, -, rfl⟩ := dispatch_eq_next.mp h
  · exact ⟨rfl, rfl, rfl, .inr rfl⟩
  · exact ⟨rfl, rfl, rfl, .inl rfl⟩

/-- The clean byte that completes a pair is dispatched, and the tick behind it finds the watchdog disarmed. -/
theorem CycleRuns.completes {c : CycleInput} {s s1 s2 s3 t : State} {b : RxByte} (h : CycleRuns c s s1 s2 s3 t)
    (hb : c.rx = some b) (ht : c.tick = true) (hx : s.regs.rx_state = rxAwaitData) (he : rxErr b = false) :
    dispatch s.regs.pending_unit b.data (disarmWdt (setRx rxAwaitUnit s2)) = .next t ∧ t.regs.rx_state = rxAwaitUnit ∧
      t.regs.wdt_armed = false ∧ t.regs.wdt_count = 0 ∧ DropLabel.timeout ∉ t.ports.drops := by
  have hs2 := h.receivesFrom
  have hrx := h.rxc_eq hb
  rw [he, rxc_awaitData (hs2.rx_state.trans hx)] at hrx
  have hd : dispatch s.regs.pending_unit b.data (disarmWdt (setRx rxAwaitUnit s2)) = .next s3 := hs2.pending_unit ▸ hrx
  obtain ⟨hx3, ha3, hc3, hdrops⟩ := dispatch_keeps_control hd
  have hts : s3 = t := Host.Outcome.next.inj ((tick_disarmed ha3).symm.trans (h.tick_eq ht))
  rw [← hts]
  refine ⟨hd, hx3, ha3, hc3, ?_⟩
  rw [disarmWdt_ports, setRx_ports, hs2.drops] at hdrops
  obtain hdrops | hdrops := hdrops <;> simp [hdrops]

/-- Where a type other than Undefined is stored, the index is below NUM_UNITS. -/
theorem registered_of_stored {s : State} (hs : Sized s) {i : Nat} {ty : BitVec 4} (hty : s.regs.desc_type[i]? = some ty)
    (hne : ty ≠ 0) : Registered s i := by
  obtain ⟨hlt, -⟩ := List.getElem?_eq_some_iff.mp hty
  exact ⟨hs.desc_type ▸ hlt, ty, hty, hne⟩

theorem registered_congr {s t : State} (hp : t.params = s.params) (ht : t.regs.desc_type = s.regs.desc_type) {i : Nat} :
    Registered t i ↔ Registered s i := by
  rw [Registered, Registered, hp, ht]

/-- Settles O35: the tick finds the watchdog disarmed behind a data byte, and armed from 0 behind a first byte. -/
theorem byteComesBeforeTick : Obligations.ByteComesBeforeTick := by
  intro s t b hi hr hb htick h
  obtain ⟨s1, s2, s3, hc⟩ := cycleRuns_of_step hr h
  have hs2 := hc.receivesFrom
  have hp3 : s3.params = s.params := ((receiveOnly_rxPhase hc.atRx).field State.params).trans hs2.params
  have htick' := hc.tick_eq htick
  refine ⟨fun hx hfe hpe => ?_, fun hx hone => ?_, fun hx hmore => ?_⟩
  · obtain ⟨hd, hx', ha, hz, hdrops⟩ := hc.completes hb htick hx (rxErr_eq_false_iff.mpr ⟨hfe, hpe⟩)
    refine ⟨hx', ha, hz, hdrops, fun ty hty hne => ?_⟩
    have hframe := receiveOnly_dispatch hd
    have hreg := (registered_congr (hframe.field State.params) (hframe.field (·.regs.desc_type))).mp
      (registered_of_stored (inv_step h).sized hty hne)
    obtain ⟨hbit, hin⟩ := (dispatch_event_bit hd _).1 ⟨rfl, hreg⟩
    exact ⟨hin, hbit⟩
  · obtain ⟨-, ha3, hz3⟩ := rxc_arms (hs2.rx_state.trans hx) (hc.rxc_eq hb)
    have hexp : s3.regs.wdt_count.toNat + 1 = s3.params.wdtTicks := by rw [hz3, hp3, hone]; rfl
    obtain rfl := Host.Outcome.next.inj ((tick_expires ha3 hexp).symm.trans htick')
    exact ⟨rfl, rfl, rfl, by simp [expire]⟩
  · obtain ⟨hx3, ha3, hz3⟩ := rxc_arms (hs2.rx_state.trans hx) (hc.rxc_eq hb)
    have hlt : s3.regs.wdt_count.toNat + 1 < s3.params.wdtTicks := by rw [hz3, hp3]; exact hmore
    obtain rfl := Host.Outcome.next.inj ((tick_counts ha3 hlt).symm.trans htick')
    refine ⟨?_, ha3, by rw [hz3]; rfl⟩
    simp only [rxErr, Bool.or_eq_true] at hx3
    exact hx3

/-! ## The notification (R210, R212, R216) -/

/-- A dispatch holds a notification, where none was held, exactly for a registered unit with a callback. -/
theorem dispatch_notifies_iff {u d : Byte} {s t : State} (h0 : s.cb_reg = none) (h : dispatch u d s = .next t) (n : Notification) :
    t.cb_reg = some n ↔ n = ⟨u, d⟩ ∧ Registered s (unitIndex u) ∧ s.regs.desc_cb[unitIndex u]? = some true := by
  obtain ⟨hun, rfl⟩ | ⟨hreg, -, -, cb, hcb, rfl⟩ := dispatch_eq_next.mp h
  · simp [h0, not_registered_of_unregistered hun]
  · cases cb <;> simp [h0, hreg, hcb, eq_comm]

/-- RXC writes the notification only where it dispatches. -/
theorem rxc_cb_of_no_dispatch {b : Byte} {err : Bool} {s t : State} (h : rxc b err s = .next t)
    (hno : ¬(s.regs.rx_state = rxAwaitData ∧ err = false)) : t.cb_reg = s.cb_reg := by
  obtain ⟨-, -, rfl⟩ | ⟨-, -, rfl⟩ | ⟨-, -, rfl⟩ | ⟨-, rfl⟩ | ⟨hx, he, -⟩ := rxc_cases h
  · rfl
  · rfl
  · rfl
  · rfl
  · exact absurd ⟨hx, he⟩ hno

theorem rxc_notifies_iff {b : Byte} {err : Bool} {s t : State} (h0 : s.cb_reg = none) (h : rxc b err s = .next t) (n : Notification) :
    t.cb_reg = some n ↔ (s.regs.rx_state = rxAwaitData ∧ err = false) ∧ n = ⟨s.regs.pending_unit, b⟩ ∧
      Registered s (unitIndex s.regs.pending_unit) ∧ s.regs.desc_cb[unitIndex s.regs.pending_unit]? = some true := by
  by_cases hd : s.regs.rx_state = rxAwaitData ∧ err = false
  · have ⟨hx, he⟩ := hd
    rw [he, rxc_awaitData hx] at h
    have hiff := dispatch_notifies_iff (s := disarmWdt (setRx rxAwaitUnit s)) h0 h n
    exact hiff.trans (and_iff_right hd).symm
  · rw [rxc_cb_of_no_dispatch h hd, h0]
    exact iff_of_false nofun fun hn => hd hn.1

theorem cb_tickPhase {c : CycleInput} {s t : State} (h : tickPhase c s = .next t) : t.cb_reg = s.cb_reg := by
  unfold tickPhase at h
  split at h
  · obtain ⟨-, rfl⟩ | ⟨-, -, rfl⟩ | ⟨-, -, rfl⟩ := tick_cases h <;> rfl
  · cases h; rfl

/-- Settles O38: RXC comes after the command and dispatches to the unit as the command left it. -/
theorem notificationExactlyAtDispatch : Obligations.NotificationExactlyAtDispatch := by
  intro s t u d hi hr h
  obtain ⟨s1, s2, s3, hc⟩ := cycleRuns_of_step hr h
  have hs2 := hc.receivesFrom
  have hframe := hc.receiveOnly
  have hty : t.regs.desc_type = s2.regs.desc_type := hframe.field (·.regs.desc_type)
  have hcbs : t.regs.desc_cb = s2.regs.desc_cb := hframe.field (·.regs.desc_cb)
  rw [cb_tickPhase hc.atTick, hty, hcbs]
  cases hb : (nextInput s).rx with
  | none =>
    rw [hc.rx_none hb, hs2.cb_reg]
    simp
  | some b =>
    rw [rxc_notifies_iff hs2.cb_reg (hc.rxc_eq hb), hs2.rx_state, hs2.pending_unit, Registered, hs2.params]
    simp only [Notification.mk.injEq, Option.map_some, Option.some.injEq]
    constructor
    · rintro ⟨⟨hx, he⟩, ⟨rfl, rfl⟩, ⟨hlt, hreg⟩, hcb⟩
      exact ⟨hx, rfl, rfl, he, hlt, hreg, hcb⟩
    · rintro ⟨hx, rfl, rfl, he, hlt, hreg, hcb⟩
      exact ⟨⟨hx, he⟩, ⟨rfl, rfl⟩, ⟨hlt, hreg⟩, hcb⟩

end Sys2Proof.Machine
end

section
/-! The watchdog bounds recovery (41_receive.md R223, R224, R226; 60_exceptions.md R311): with a tick and no byte in each cycle the count
reaches WDT_TICKS, and nothing is dispatched on the way. -/

namespace Sys2Proof.Machine

/-! ## Cycles without a byte -/

/-- From s to t nothing was dispatched: no notification is held, no input value has changed, and no event bit has risen. -/
structure NothingDispatched (s t : State) : Prop where
  cb_reg : t.cb_reg = none
  in_val : t.regs.in_val = s.regs.in_val
  events : ∀ i, t.regs.event_word.getLsbD i = true → s.regs.event_word.getLsbD i = true

theorem NothingDispatched.trans {s t u : State} (h1 : NothingDispatched s t) (h2 : NothingDispatched t u) : NothingDispatched s u :=
  ⟨h2.cb_reg, h2.in_val.trans h1.in_val, fun i hu => h1.events i (h2.events i hu)⟩

/-- A cycle without a byte dispatches nothing, whatever its command and its tick do. -/
theorem CycleRuns.nothingDispatched {c : CycleInput} {s s1 s2 s3 t : State} (h : CycleRuns c s s1 s2 s3 t) (hb : c.rx = none) :
    NothingDispatched s t := by
  have hs2 := h.receivesFrom
  have htick := h.atTick
  rw [h.rx_none hb] at htick
  obtain ⟨hword, hin, -⟩ := storage_tickPhase htick
  obtain ⟨-, -, hbits⟩ := hostPhase_event_bits h.atHost
  refine ⟨(cb_tickPhase htick).trans hs2.cb_reg, hin.trans hs2.in_val, fun i hi => ?_⟩
  rw [hword] at hi
  have hs1 : s1.regs.event_word = s.regs.event_word := h.transmitOnly.field (·.regs.event_word)
  obtain heq | ⟨hz, -⟩ := hbits i
  · rw [← hs1, ← heq, hi]
  · exact absurd (hz.symm.trans hi) Bool.noConfusion

/-! ## One tick of an armed watchdog -/

theorem count_succ_toNat {s : State} (hi : Inv s) (hlt : s.regs.wdt_count.toNat + 1 < s.params.wdtTicks) :
    (s.regs.wdt_count + 1).toNat = s.regs.wdt_count.toNat + 1 := by
  have hle := hi.legal.ticks_le
  rw [BitVec.toNat_add]
  exact Nat.mod_eq_of_lt (show s.regs.wdt_count.toNat + 1 < 65536 by omega)

/-- TICK finds the watchdog, in a cycle without a byte, as the cycle did. -/
theorem CycleRuns.ticks {c : CycleInput} {s s1 s2 s3 t : State} (h : CycleRuns c s s1 s2 s3 t) (hb : c.rx = none)
    (ht : c.tick = true) (ha : s.regs.wdt_armed = true) :
    (s.regs.wdt_count.toNat + 1 < s.params.wdtTicks → t.regs.wdt_armed = true ∧ t.regs.wdt_count.toNat = s.regs.wdt_count.toNat + 1) ∧
    (s.regs.wdt_count.toNat + 1 = s.params.wdtTicks →
      t.regs.rx_state = rxAwaitUnit ∧ t.regs.wdt_armed = false ∧ DropLabel.timeout ∈ t.ports.drops) := by
  have hs2 := h.receivesFrom
  have htick := h.tick_eq ht
  rw [h.rx_none hb] at htick
  have ha2 := hs2.wdt_armed.trans ha
  rw [← hs2.wdt_count, ← hs2.params]
  refine ⟨fun hlt => ?_, fun heq => ?_⟩
  · obtain rfl := Host.Outcome.next.inj ((tick_counts ha2 hlt).symm.trans htick)
    exact ⟨ha2, count_succ_toNat h.inv_host hlt⟩
  · obtain rfl := Host.Outcome.next.inj ((tick_expires ha2 heq).symm.trans htick)
    exact ⟨rfl, rfl, by simp [expire]⟩

/-! ## Runs -/

theorem inputs_of_step_cons {s t : State} {c : CycleInput} {rest : List CycleInput} (h : s.inputs = c :: rest)
    (hs : step s = .next t) : t.inputs = rest := by
  rw [inputs_step hs, h]
  rfl

/-- In a run of cycles without reset and without a byte, every cycle dispatches nothing, and the input values stay the first ones. -/
theorem run_nothingDispatched {j : Nat} {ins rest : List CycleInput} {s x y : State} (hin : s.inputs = ins ++ rest)
    (hq : ∀ c ∈ ins, c.rst = false ∧ c.rx = none) (hj : j < ins.length) (hrun : Host.Core.run Sys2Proof.core j s = .next x)
    (hstep : step x = .next y) : NothingDispatched x y ∧ y.regs.in_val = s.regs.in_val := by
  induction j generalizing s ins with
  | zero =>
    cases hrun
    cases ins with
    | nil => cases hj
    | cons c ins =>
      obtain ⟨hr, hb⟩ := hq c List.mem_cons_self
      obtain rfl := nextInput_of_cons hin
      obtain ⟨s1, s2, s3, hc⟩ := cycleRuns_of_step hr hstep
      have hn := hc.nothingDispatched hb
      exact ⟨hn, hn.in_val⟩
  | succ j ih =>
    cases ins with
    | nil => cases hj
    | cons c ins =>
      obtain ⟨t, ht, hrun⟩ := run_succ_eq_next.mp hrun
      obtain ⟨hr, hb⟩ := hq c List.mem_cons_self
      obtain ⟨hn, hin'⟩ := ih (inputs_of_step_cons hin ht) (fun c hc => hq c (List.mem_cons_of_mem _ hc))
        (Nat.lt_of_succ_lt_succ hj) hrun
      obtain rfl := nextInput_of_cons hin
      obtain ⟨s1, s2, s3, hc⟩ := cycleRuns_of_step hr ht
      exact ⟨hn, hin'.trans (hc.nothingDispatched hb).in_val⟩

/-- The missing ticks, one a cycle and with no byte between them, run an armed watchdog to its expiry. -/
theorem run_to_expiry {ins rest : List CycleInput} {s : State} (hi : Inv s) (ha : s.regs.wdt_armed = true)
    (hin : s.inputs = ins ++ rest) (hlen : s.regs.wdt_count.toNat + ins.length = s.params.wdtTicks)
    (hq : ∀ c ∈ ins, c.rst = false ∧ c.rx = none ∧ c.tick = true) :
    ∃ t, Host.Core.run Sys2Proof.core ins.length s = .next t ∧ t.regs.rx_state = rxAwaitUnit ∧ t.regs.wdt_armed = false ∧
      DropLabel.timeout ∈ t.ports.drops ∧ NothingDispatched s t := by
  induction ins generalizing s with
  | nil => exact absurd hlen (hi.count_lt ha).ne
  | cons c ins ih =>
    rw [List.length_cons] at hlen ⊢
    obtain ⟨hr, hb, ht⟩ := hq c List.mem_cons_self
    obtain ⟨t, hstep⟩ := step_goes hi
    rw [run_succ_next hstep]
    have hin' := inputs_of_step_cons hin hstep
    obtain rfl := nextInput_of_cons hin
    obtain ⟨s1, s2, s3, hc⟩ := cycleRuns_of_step hr hstep
    obtain ⟨hcount, hexpire⟩ := hc.ticks hb ht ha
    have hn := hc.nothingDispatched hb
    by_cases hlast : ins = []
    · subst hlast
      obtain ⟨hx, ha', hdrop⟩ := hexpire hlen
      exact ⟨t, rfl, hx, ha', hdrop, hn⟩
    · have hpos := List.length_pos_of_ne_nil hlast
      obtain ⟨ha', hcnt⟩ := hcount (by omega)
      obtain ⟨u, hrun, hx, hau, hdrop, hnu⟩ := ih (inv_step hstep) ha' hin' (by rw [hcnt, params_step hstep]; omega)
        fun c hc => hq c (List.mem_cons_of_mem _ hc)
      exact ⟨u, hrun, hx, hau, hdrop, hn.trans hnu⟩

/-- Settles O36: `run_to_expiry`, and cycle by cycle `run_nothingDispatched`. -/
theorem watchdogBoundsRecovery : Obligations.WatchdogBoundsRecovery := by
  intro s ins rest hi ha hin hlen hq
  refine ⟨?_, fun j x y hj hrun hstep => ?_⟩
  · obtain ⟨t, hrun, hx, hat, hdrop, hn⟩ := run_to_expiry hi ha hin hlen hq
    exact ⟨t, hrun, hx, hat, hn.in_val, hn.cb_reg, hdrop, hn.events⟩
  · have hq' : ∀ c ∈ ins, c.rst = false ∧ c.rx = none := fun c hc => have ⟨hr, hb, _⟩ := hq c hc; ⟨hr, hb⟩
    obtain ⟨hn, hin'⟩ := run_nothingDispatched hin hq' hj hrun hstep
    exact ⟨hn.cb_reg, hin', hn.events⟩

end Sys2Proof.Machine
end

section
/-! The registers that nothing reads do not matter (93_implementation_defined.md I13 to I16): with other values in them every part of a
cycle does the same, and leaves at most such values different. -/

namespace Sys2Proof.Machine

/-- s, with u's values of the registers that are read only in some states, and with u's ring slots. -/
def withUnread (u s : State) : State :=
  { s with regs := { s.regs with
      pending_unit := u.regs.pending_unit, second_byte := u.regs.second_byte
      thr_byte := u.regs.thr_byte, rb_mem := u.regs.rb_mem } }

/-- u's values may stand in s for s's own: they agree wherever a step may read them (I13 to I16). -/
structure StandsIn (u s : State) : Prop where
  length       : u.regs.rb_mem.length = s.regs.rb_mem.length
  queue        : queue (withUnread u s) = queue s
  pending_unit : s.regs.rx_state = rxAwaitData → u.regs.pending_unit = s.regs.pending_unit
  second_byte  : s.regs.mid_pair = true → u.regs.second_byte = s.regs.second_byte
  thr_byte     : s.regs.thr_full = true → u.regs.thr_byte = s.regs.thr_byte

/-- f does in s, with values that stand in s, what it does in s, and leaves values that stand in the result. -/
def Follows (f : State → Result State) (s : State) : Prop :=
  ∀ u t, StandsIn u s → f s = .next t → ∃ v, f (withUnread u s) = .next (withUnread v t) ∧ StandsIn v t

theorem ringOk_withUnread {u s : State} (h : RingOk s) (hu : StandsIn u s) : RingOk (withUnread u s) :=
  ⟨h.cap_pos, h.cap_le, hu.length.trans h.length, h.free_le, h.head_lt, h.tail_eq⟩

/-! ## Parts that write none of the four registers and no ring slot -/

/-- What keeps the transmit path, and AwaitData only with its unit byte, keeps the values that stand in. -/
theorem standsIn_of_kept {u s t : State} (h : StandsIn u s) (hv : transmitView t = transmitView s)
    (hx : t.regs.rx_state = rxAwaitData → s.regs.rx_state = rxAwaitData ∧ t.regs.pending_unit = s.regs.pending_unit) :
    StandsIn u t := by
  simp only [transmitView, TransmitView.mk.injEq] at hv
  obtain ⟨hcap, -, hfull, hbyte, hmid, hsecond, hmem, hhead, hfree, -, -⟩ := hv
  refine ⟨hmem ▸ h.length, ?_, fun ha => ?_, fun hm => ?_, fun hf => ?_⟩
  · calc queue (withUnread u t) = queue (withUnread u s) := queue_congr hcap rfl hhead hfree
      _ = queue s := h.queue
      _ = queue t := (queue_congr hcap hmem hhead hfree).symm
  · obtain ⟨hs, hp⟩ := hx ha
    exact (h.pending_unit hs).trans hp.symm
  · exact (h.second_byte (hmid ▸ hm)).trans hsecond.symm
  · exact (h.thr_byte (hfull ▸ hf)).trans hbyte.symm

theorem withIndex_withUnread {u s : State} {idx : Byte} {k k' : Nat → Result State}
    (hk : ∀ i, k' i = andThen (k i) fun t => .next (withUnread u t)) :
    withIndex idx (withUnread u s) k' = andThen (withIndex idx s k) fun t => .next (withUnread u t) := by
  by_cases h : s.params.numUnits ≤ idx.toNat
  · rw [withIndex_out h, withIndex_out (s := withUnread u s) h]
    rfl
  · have h' := Nat.not_le.mp h
    rw [withIndex_in h', withIndex_in (s := withUnread u s) h', hk]

/-- Every command but SUBMIT neither reads nor writes the four registers and the ring slots. -/
theorem exec_withUnread {i : Instr} (hi : ∀ u d, i ≠ .submit u d) (u s : State) :
    exec i (withUnread u s) = andThen (exec i s) fun t => .next (withUnread u t) := by
  cases i with
  | submit x d => exact absurd rfl (hi x d)
  | register idx ty cb =>
    unfold exec execRegister
    refine withIndex_withUnread fun i => ?_
    by_cases hr : typeReserved ty = true
    · rw [if_pos hr, if_pos hr]
      rfl
    · rw [if_neg hr, if_neg hr]
      by_cases ha : typeAbsent s.params ty = true
      · rw [if_pos ha, if_pos (show typeAbsent (withUnread u s).params ty = true from ha)]
        rfl
      · rw [if_neg ha, if_neg (show ¬ typeAbsent (withUnread u s).params ty = true from ha)]
        simp only [andThen_assoc]
        rfl
  | setCallback idx cb =>
    unfold exec execSetCallback
    exact withIndex_withUnread fun i => by rw [andThen_assoc]; rfl
  | getInput idx =>
    unfold exec execGetInput
    exact withIndex_withUnread fun i => by rw [andThen_assoc]; rfl
  | getOutput idx =>
    unfold exec execGetOutput
    exact withIndex_withUnread fun i => by rw [andThen_assoc]; rfl
  | eventGet idx =>
    unfold exec execEventGet
    exact withIndex_withUnread fun i => by rw [andThen_assoc]; rfl
  | eventClear idx =>
    unfold exec execEventClear
    exact withIndex_withUnread fun i => by rw [andThen_assoc]; rfl
  | getDesc idx =>
    unfold exec execGetDesc
    exact withIndex_withUnread fun i => by simp only [andThen_assoc]; rfl
  | nop | eventClearAll | status | reservedB | reservedC | reservedD | reservedE | reservedF => rfl

theorem dispatch_of_withUnread {x d : Byte} {s t : State} (h : dispatch x d s = .next t) (u : State) :
    dispatch x d (withUnread u s) = .next (withUnread u t) := by
  rw [dispatch_eq_next] at h ⊢
  obtain ⟨hun, rfl⟩ | ⟨hreg, hin, h64, cb, hcb, rfl⟩ := h
  · exact .inl ⟨hun, rfl⟩
  · exact .inr ⟨hreg, hin, h64, cb, hcb, rfl⟩

theorem tick_of_withUnread {s t : State} (h : tick s = .next t) (u : State) : tick (withUnread u s) = .next (withUnread u t) := by
  obtain ⟨ha, rfl⟩ | ⟨ha, hlt, rfl⟩ | ⟨ha, heq, rfl⟩ := tick_cases h
  · exact tick_disarmed ha
  · exact tick_counts (s := withUnread u s) ha hlt
  · exact tick_expires (s := withUnread u s) ha heq

/-! ## The parts of a cycle -/

theorem follows_exec_of_no_submit {i : Instr} (hi : ∀ u d, i ≠ .submit u d) (s : State) : Follows (exec i) s := by
  intro u t hu h
  have hc := commandOnly_exec h
  refine ⟨u, by rw [exec_withUnread hi, h]; rfl, standsIn_of_kept hu (transmitView_exec hi h) fun hx => ⟨?_, ?_⟩⟩
  · exact (hc.field (·.regs.rx_state)).symm.trans hx
  · exact hc.field (·.regs.pending_unit)

theorem follows_tick (s : State) : Follows tick s := by
  intro u t hu h
  refine ⟨u, tick_of_withUnread h u, ?_⟩
  obtain ⟨-, rfl⟩ | ⟨-, -, rfl⟩ | ⟨-, -, rfl⟩ := tick_cases h
  · exact hu
  · exact standsIn_of_kept hu rfl fun hx => ⟨hx, rfl⟩
  · exact standsIn_of_kept hu rfl nofun

/-- RXC reads pending_unit in AwaitData only, and writes it when it leaves AwaitUnit for AwaitData. -/
theorem follows_rxc (b : Byte) (err : Bool) (s : State) : Follows (rxc b err) s := by
  intro u t hu h
  obtain ⟨hx, rfl, rfl⟩ | ⟨hx, rfl, rfl⟩ | ⟨hx, rfl, rfl⟩ | ⟨hx, rfl⟩ | ⟨hx, rfl, hd⟩ := rxc_cases h
  · refine ⟨{ u with regs := { u.regs with pending_unit := b } }, rxc_awaitUnit (s := withUnread u s) hx b false, ?_⟩
    exact ⟨hu.length, hu.queue, fun _ => rfl, hu.second_byte, hu.thr_byte⟩
  · exact ⟨u, rxc_awaitUnit (s := withUnread u s) hx b true, standsIn_of_kept hu rfl nofun⟩
  · exact ⟨u, rxc_awaitData (s := withUnread u s) hx b true, standsIn_of_kept hu rfl nofun⟩
  · exact ⟨u, rxc_resyncDiscard (s := withUnread u s) hx b err, standsIn_of_kept hu rfl nofun⟩
  · have hd' := dispatch_of_withUnread hd u
    rw [← hu.pending_unit hx] at hd'
    obtain ⟨hx', -⟩ := dispatch_keeps_control hd
    refine ⟨u, (rxc_awaitData (s := withUnread u s) hx b false).trans hd', standsIn_of_kept hu ?_ fun hxt => ?_⟩
    · exact (transmitView_dispatch hd).1
    · exact absurd (hx'.symm.trans hxt) nofun

/-! ## DRAIN and TXE -/

/-- DRAIN shows thr_byte where THR is full, and leaves it empty. -/
theorem drainPhase_withUnread {u s : State} (hu : StandsIn u s) (c : CycleInput) :
    drainPhase c (withUnread u s) = withUnread u (drainPhase c s) ∧ StandsIn u (drainPhase c s) := by
  unfold drainPhase
  by_cases h : (c.drain && s.regs.thr_full) = true
  · have hb := hu.thr_byte (Bool.and_eq_true_iff.mp h).2
    rw [if_pos h, if_pos (show (c.drain && (withUnread u s).regs.thr_full) = true from h)]
    exact ⟨by simp only [drain, withUnread, hb], hu.length, hu.queue, hu.pending_unit, hu.second_byte, nofun⟩
  · rw [if_neg h, if_neg (show ¬ (c.drain && (withUnread u s).regs.thr_full) = true from h)]
    exact ⟨rfl, hu⟩

theorem txe_of_mid {s : State} (hf : s.regs.thr_full = false) (hm : s.regs.mid_pair = true) :
    txe s = .next { s with
      regs := { s.regs with
        thr_byte := s.regs.second_byte, thr_full := true, mid_pair := false
        tx_int_en := if s.params.rbCapacity = 0 ∨ rbCount s = 0 then false else s.regs.tx_int_en }
      ports := { s.ports with tx := some s.regs.second_byte } } := by
  by_cases hc : s.params.rbCapacity = 0
  · simp [txe_queueless hc, txeQueueless_mid hf hm, hc]
  · simp [txe_buffered_mid (Nat.pos_of_ne_zero hc) hm, txeSecondByte_empty hf, hc]

theorem txe_of_entry {s : State} {e : Word16} (hc : 0 < s.params.rbCapacity) (hm : s.regs.mid_pair = false) (hn : 0 < rbCount s)
    (hf : s.regs.thr_full = false) (he : s.regs.rb_mem[s.regs.rb_head.toNat]? = some e) :
    txe s = .next { s with
      regs := { s.regs with
        rb_head := ringNext s.params.rbCapacity s.regs.rb_head, rb_free := s.regs.rb_free + 1
        thr_full := true, thr_byte := entryUnit e, second_byte := entryData e, mid_pair := true }
      ports := { s.ports with tx := some (entryUnit e) } } := by
  rw [txe_buffered_not_mid hc hm, if_pos hn]
  exact txeFirstByte_of_entry hc hf he (rbCount_pos_iff.mp hn)

theorem txe_of_nothing {s : State} (hc : 0 < s.params.rbCapacity) (hm : s.regs.mid_pair = false) (hn : rbCount s = 0) :
    txe s = txeIdle s := by
  rw [txe_buffered_not_mid hc hm, if_neg (by omega)]

/-- The slot at rb_head holds the oldest entry. -/
theorem slot_of_queue {s : State} {e : Word16} {es : List Word16} (hr : RingOk s) (hq : queue s = e :: es) :
    s.regs.rb_mem[s.regs.rb_head.toNat]? = some e := by
  have hn : 0 < rbCount s := by rw [← length_queue, hq]; exact Nat.succ_pos _
  obtain ⟨e', t, hd, hq', -⟩ := dequeue_spec hr hn
  obtain ⟨rfl, -⟩ := List.cons.inj (hq'.symm.trans hq)
  obtain ⟨-, -, he, -⟩ := dequeue_eq_next.mp hd
  exact he

theorem follows_txe {s : State} (hi : Inv s) : Follows txe s := by
  intro u t hu h
  obtain ⟨hm, hf, rfl⟩ | ⟨hc, hm, hn, hf, e, he, ht⟩ | ⟨hc, hm, hn, rfl⟩ := txe_cases h
  · refine ⟨{ u with regs := { u.regs with thr_byte := s.regs.second_byte } }, ?_, hu.length, hu.queue, hu.pending_unit,
      nofun, fun _ => rfl⟩
    rw [txe_of_mid (s := withUnread u s) hf hm]
    have hb : (withUnread u s).regs.second_byte = s.regs.second_byte := hu.second_byte hm
    rw [hb]
    rfl
  · have hr := hi.ringOk hc
    have hr' := ringOk_withUnread hr hu
    have hq : queue s = e :: queue t := by
      refine queue_eq_cons hr hn he ?_ ?_ ?_ ?_ <;> rw [ht]
    have hq' : queue (withUnread u s) = e :: queue t := hu.queue.trans hq
    have he' := slot_of_queue hr' hq'
    subst ht
    refine ⟨{ u with regs := { u.regs with thr_byte := entryUnit e, second_byte := entryData e } },
      txe_of_entry (s := withUnread u s) hc hm hn hf he', hu.length, ?_, hu.pending_unit, fun _ => rfl, fun _ => rfl⟩
    have hcons := queue_eq_cons hr' hn he' (t := withUnread u { s with regs := { s.regs with
      rb_head := ringNext s.params.rbCapacity s.regs.rb_head, rb_free := s.regs.rb_free + 1 } }) rfl rfl rfl rfl
    exact (List.cons.inj (hcons.symm.trans hq')).2
  · exact ⟨u, txe_of_nothing (s := withUnread u s) hc hm hn, standsIn_of_kept hu rfl fun hx => ⟨hx, rfl⟩⟩

/-! ## SUBMIT -/

theorem follows_submit {x d : Byte} {s : State} (hi : Inv s) : Follows (execSubmit x d) s := by
  intro u t hu h
  have hsized : Sized (withUnread u s) :=
    ⟨hu.length.trans hi.sized.rb_mem, hi.sized.desc_type, hi.sized.desc_cb, hi.sized.in_val, hi.sized.out_val⟩
  obtain (⟨hc, hb, rfl⟩ | ⟨hc, hz, rfl⟩) | ⟨hc, hf, hen, -, rfl⟩ | ⟨hc, hn, hlt, -, ht⟩ := execSubmit_cases h
  · refine ⟨u, ?_, standsIn_of_kept hu rfl fun hx => ⟨hx, rfl⟩⟩
    exact (exec_submit_queueless (s := withUnread u s) hc x d).trans (submitQueueless_busy (s := withUnread u s) hb x d)
  · refine ⟨u, ?_, standsIn_of_kept hu rfl fun hx => ⟨hx, rfl⟩⟩
    exact (exec_submit_buffered (s := withUnread u s) hc x d).trans (submitBuffered_full (s := withUnread u s) hz x d)
  · refine ⟨{ u with regs := { u.regs with thr_byte := x, second_byte := d } }, ?_, hu.length, hu.queue, hu.pending_unit,
      fun _ => rfl, fun _ => rfl⟩
    exact (exec_submit_queueless (s := withUnread u s) hc x d).trans
      (submitQueueless_free (s := withUnread u s) hf hen hi.sized.out_val x d)
  · have hr := hi.ringOk hc
    have hr' := ringOk_withUnread hr hu
    have hq : queue t = queue s ++ [entryOf x d] := by
      refine queue_eq_append hr hn hlt ?_ ?_ ?_ ?_ <;> rw [ht]
    have htail := hi.tail_lt hc
    have hz : s.regs.rb_free ≠ 0 := fun h0 => by rw [h0] at hn; exact absurd hn (by decide)
    subst ht
    refine ⟨{ u with regs := { u.regs with rb_mem := u.regs.rb_mem.set s.regs.rb_tail.toNat (entryOf x d) } },
      (exec_submit_buffered (s := withUnread u s) hc x d).trans
        (submitBuffered_free (s := withUnread u s) hc hsized htail hz x d), ?_, ?_, hu.pending_unit, hu.second_byte, hu.thr_byte⟩
    · simp [hu.length]
    · have happ := queue_eq_append hr' hn (hsized.rb_mem.symm ▸ htail) (e := entryOf x d)
        (t := withUnread { u with regs := { u.regs with rb_mem := u.regs.rb_mem.set s.regs.rb_tail.toNat (entryOf x d) } }
          { s with regs := { s.regs with rb_free := s.regs.rb_free - 1 } }) rfl rfl rfl rfl
      exact (happ.trans (congrArg (· ++ [entryOf x d]) hu.queue)).trans hq.symm

/-! ## Phases, and the cycle -/

theorem follows_andThen {f k : State → Result State} {s : State} (hf : Follows f s) (hk : ∀ t, f s = .next t → Follows k t) :
    Follows (fun s => andThen (f s) k) s := by
  intro u t hu h
  obtain ⟨s1, h1, h2⟩ := andThen_eq_next.mp h
  obtain ⟨v, hv, hsv⟩ := hf u s1 hu h1
  obtain ⟨w, hw, hsw⟩ := hk s1 h1 v t hsv h2
  exact ⟨w, andThen_eq_next.mpr ⟨_, hv, hw⟩, hsw⟩

theorem follows_next (s : State) : Follows .next s := by
  intro u t hu h
  cases h
  exact ⟨u, rfl, hu⟩

theorem follows_txePhase {s : State} (hi : Inv s) : Follows txePhase s := by
  intro u t hu h
  unfold txePhase at h ⊢
  by_cases hen : txeEnabled s = true
  · rw [if_pos hen] at h
    rw [if_pos (show txeEnabled (withUnread u s) = true from hen)]
    exact follows_txe hi u t hu h
  · rw [if_neg hen] at h
    rw [if_neg (show ¬ txeEnabled (withUnread u s) = true from hen)]
    exact follows_next s u t hu h

theorem follows_exec {s : State} (hi : Inv s) (i : Instr) : Follows (exec i) s := by
  by_cases hsub : ∃ x d, i = .submit x d
  · obtain ⟨x, d, rfl⟩ := hsub
    exact follows_submit hi
  · exact follows_exec_of_no_submit (fun x d hs => hsub ⟨x, d, hs⟩) s

theorem follows_hostPhase {s : State} (hi : Inv s) (c : CycleInput) : Follows (hostPhase c) s := by
  unfold hostPhase
  cases c.cmd with
  | none => exact follows_next s
  | some w => exact follows_exec hi (decode w)

theorem follows_rxPhase (c : CycleInput) (s : State) : Follows (rxPhase c) s := by
  unfold rxPhase
  cases c.rx with
  | none => exact follows_next s
  | some b => exact follows_rxc b.data (rxErr b) s

theorem follows_tickPhase (c : CycleInput) (s : State) : Follows (tickPhase c) s := by
  unfold tickPhase
  cases c.tick with
  | false => exact follows_next s
  | true => exact follows_tick s

theorem follows_runCycle {s : State} (hi : Inv s) (c : CycleInput) : Follows (runCycle c) s := by
  intro u t hu h
  obtain ⟨hdrain, hu0⟩ := drainPhase_withUnread hu c
  have hi0 := inv_drainPhase hi c
  have hrun : Follows (fun s => andThen (txePhase s) fun s1 => andThen (hostPhase c s1) (receivePhase c)) (drainPhase c s) :=
    follows_andThen (follows_txePhase hi0) fun s1 h1 => follows_andThen (follows_hostPhase (inv_txePhase hi0 h1) c) fun s2 _ =>
      follows_andThen (follows_rxPhase c s2) fun s3 _ => follows_tickPhase c s3
  rw [runCycle, transmitPhase, hdrain]
  exact hrun u t hu0 h

/-! ## The relation of the statement -/

theorem beginCycle_of_sameButUnread {s s' : State} (h : SameButUnread s s') : beginCycle s' = withUnread s' (beginCycle s) := by
  simp only [beginCycle, withUnread, h.params, h.inputs, h.rsp_reg, h.cb_reg, h.rx_state, h.wdt_armed, h.wdt_count, h.tx_int_en,
    h.mid_pair, h.rb_head, h.rb_tail, h.rb_free, h.desc_type, h.desc_cb, h.in_val, h.out_val, h.event_word, h.thr_full]

theorem standsIn_of_sameButUnread {s s' : State} (hi : Inv s) (hi' : Inv s') (h : SameButUnread s s') : StandsIn s' (beginCycle s) := by
  refine ⟨?_, ?_, fun hx => (h.pending_unit hx).symm, fun hm => (h.second_byte hm).symm, fun hf => (h.thr_byte hf).symm⟩
  · rw [beginCycle_regs, hi.sized.rb_mem, hi'.sized.rb_mem, h.params]
  · rw [← beginCycle_of_sameButUnread h]
    exact h.queue.symm

theorem sameButUnread_of_standsIn {v t : State} (h : StandsIn v t) : SameButUnread t (withUnread v t) :=
  ⟨rfl, rfl, rfl, rfl, rfl, rfl, rfl, rfl, rfl, rfl, rfl, rfl, rfl, rfl, rfl, rfl, rfl, rfl, h.queue.symm,
    fun hx => (h.pending_unit hx).symm, fun hm => (h.second_byte hm).symm, fun hf => (h.thr_byte hf).symm⟩

theorem SameButUnread.refl (s : State) : SameButUnread s s :=
  sameButUnread_of_standsIn (v := s) ⟨rfl, rfl, fun _ => rfl, fun _ => rfl, fun _ => rfl⟩

/-- Settles O40: a reset leaves the same state from both, and any other cycle of the second state follows the first's, phase by phase. -/
theorem unreadRegistersDoNotMatter : Obligations.UnreadRegistersDoNotMatter := by
  intro s s' t hi hi' hs h
  have hin : nextInput s' = nextInput s := by rw [nextInput, nextInput, hs.inputs]
  cases hr : (nextInput s).rst with
  | true =>
    have hreset : resetCycle s' = t := by
      rw [step_of_reset hr h, resetCycle, resetCycle, hs.params, hs.inputs]
    exact ⟨t, hreset ▸ step_reset hi'.legal (hin ▸ hr), .refl t, rfl⟩
  | false =>
    rw [step_run hi hr] at h
    obtain ⟨v, hv, hvt⟩ := follows_runCycle (inv_beginCycle hi) _ s' t (standsIn_of_sameButUnread hi hi' hs) h
    refine ⟨withUnread v t, ?_, sameButUnread_of_standsIn hvt, rfl⟩
    rw [step_run hi' (hin ▸ hr), hin, beginCycle_of_sameButUnread hs]
    exact hv

end Sys2Proof.Machine
end
